-- ==== Sys2Proof/Word.lean ====
section
/-! DEFINITION. The value types of the CORE: u8, u16 and u32 (spec/00_scope.md R10) and text (R16). -/

namespace Sys2Proof

/-- A byte, the spec's `u8` (R10). -/
abbrev U8 := BitVec 8

/-- Two bytes, the spec's `u16` (R10): what a word accessor moves. -/
abbrev U16 := BitVec 16

/-- Four bytes, the spec's `u32` (R10): what a register holds. -/
abbrev U32 := BitVec 32

/-- `trunc32` of R10: every register write keeps the value modulo 2^32 (R22). -/
abbrev trunc32 (v : Nat) : U32 := BitVec.ofNat 32 v

/-- `trunc8` of R10. -/
abbrev trunc8 (v : Nat) : U8 := BitVec.ofNat 8 v

/-- A string of characters (R16): a program, a line or a token. PRESUMED (log 13): a character is a
Lean `Char`, a Unicode scalar value; safe, since every rule about text speaks of ASCII characters. -/
abbrev Text := List Char

end Sys2Proof
end

