-- ==== Sys2Proof/Syntax.lean ====
section
/-! DEFINITION. The syntax of the CORE: registers, operands, the 30 rows of spec/opcode_table.json, the
error kinds, a source line, and what the host and the viewer ask of the machine. -/

namespace Sys2Proof

/-- The eight general registers, in the order of R20 and R21. -/
inductive Reg where
  | eax | ebx | ecx | edx | esp | ebp | esi | edi
  deriving DecidableEq, Repr

/-- A source operand (R75, R88). Literals and addresses are naturals with no width limit (R76, R77). -/
inductive Operand where
  | imm (n : Nat)
  | reg (r : Reg)
  | mem (a : Nat)
  deriving DecidableEq, Repr

/-- One constructor per row of spec/opcode_table.json. The first five are lines of program text (R88);
the others are host-port calls (R87), whose register is a name, known or not (R152), and whose stored
values have exactly the port's width (R45, R152). -/
inductive Instr where
  | mov (d : Reg) (src : Operand)
  | add (d : Reg) (src : Operand)
  | sub (d : Reg) (src : Operand)
  | push (src : Operand)
  | pop (d : Reg)
  | portGet (name : Text)
  | portSet (name : Text) (value : Nat)
  | portAdd (name : Text) (b : U32)
  | portSub (name : Text) (b : U32)
  | portMul (name : Text) (b : U32)
  | portDiv (name : Text) (b : U32)
  | portAnd (name : Text) (b : U32)
  | portOr (name : Text) (b : U32)
  | portXor (name : Text) (b : U32)
  | portShl (name : Text) (n : Nat)
  | portShr (name : Text) (n : Nat)
  | portRol (name : Text) (n : Nat)
  | portRor (name : Text) (n : Nat)
  | portReadByte (address : Nat)
  | portWriteByte (address : Nat) (value : U8)
  | portReadWord (address : Nat)
  | portWriteWord (address : Nat) (value : U16)
  | portReadDword (address : Nat)
  | portWriteDword (address : Nat) (value : U32)
  | portReadByteSeg (segment : Nat) (offset : Nat)
  | portWriteByteSeg (segment : Nat) (offset : Nat) (value : U8)
  | portReadWordSeg (segment : Nat) (offset : Nat)
  | portWriteWordSeg (segment : Nat) (offset : Nat) (value : U16)
  | portReadDwordSeg (segment : Nat) (offset : Nat)
  | portWriteDwordSeg (segment : Nat) (offset : Nat) (value : U32)
  deriving DecidableEq, Repr

/-- The seven error kinds of R180. -/
inductive ErrorKind where
  | unknownOpcode | invalidOperands | invalidOperand | unknownRegister
  | outOfBounds | divisionByZero | invalidShiftAmount
  deriving DecidableEq, Repr

/-- What an error records beside its kind (R180, column "info recorded"). -/
inductive ErrorInfo where
  | token (t : Text)
  | address (a : Nat)
  | amount (n : Nat)
  | nothing
  deriving DecidableEq, Repr

/-- An error with its information: `raise E(info)` of R15 and R180. -/
inductive CoreError where
  | unknownOpcode (op : Text)
  | invalidOperands (op : Text)
  | invalidOperand (t : Text)
  | unknownRegister (name : Text)
  | outOfBounds (address : Nat)
  | divisionByZero
  | invalidShiftAmount (n : Nat)
  deriving DecidableEq, Repr

/-- One entry of the line list L: a stripped line and its 1-based physical line number (R71, R101). -/
structure SourceLine where
  text   : Text
  lineno : Nat
  deriving DecidableEq, Repr

/-- What the host can ask at a port of R33, the viewer's port aside. -/
inductive Request where
  /-- A register-port or memory-port call. -/
  | call (i : Instr)
  /-- The program port (R100). -/
  | executeProgram (text : Text)
  /-- The dump port (R37). -/
  | dump
  deriving DecidableEq, Repr

/-- One turn of the viewer between two whole operations (R36, R59): it reads a byte, or lets the CORE
take its next operation. -/
inductive ViewerTurn where
  | pass
  | read (segment : Nat) (offset : Nat)
  deriving DecidableEq, Repr

end Sys2Proof
end

