-- ==== Sys2Proof/Decode.lean ====
section
/-! DEFINITION. From program text to instructions and back: lines and tokens (spec/30_encoding.md R71,
R72), operands (R75 to R79), decode with its order of checks (40_dispatch.md R103), the encoder written
from the grammar (R84), and the host's number form of a line of text. -/

namespace Sys2Proof

/-! ### Names -/

/-- The eight register names in the order of R20, which is also the dump's (R37). -/
def Reg.all : List Reg := [.eax, .ebx, .ecx, .edx, .esp, .ebp, .esi, .edi]

/-- A register's name, exact and lower-case (R20, R23). -/
def Reg.name : Reg → Text
  | .eax => ['e', 'a', 'x']
  | .ebx => ['e', 'b', 'x']
  | .ecx => ['e', 'c', 'x']
  | .edx => ['e', 'd', 'x']
  | .esp => ['e', 's', 'p']
  | .ebp => ['e', 'b', 'p']
  | .esi => ['e', 's', 'i']
  | .edi => ['e', 'd', 'i']

/-- The register a name stands for: the eight names and no others (R23, R78). -/
def Reg.ofName? (t : Text) : Option Reg := Reg.all.find? (fun r => r.name == t)

/-- The place of a register in an array layout (R21). -/
def Reg.index : Reg → Nat
  | .eax => 0
  | .ebx => 1
  | .ecx => 2
  | .edx => 3
  | .esp => 4
  | .ebp => 5
  | .esi => 6
  | .edi => 7

/-- The five opcodes of R80. -/
inductive Opcode where
  | mov | add | sub | push | pop
  deriving DecidableEq, Repr

/-- All opcodes, in the order of R80. -/
def Opcode.all : List Opcode := [.mov, .add, .sub, .push, .pop]

/-- An opcode's token (R80). -/
def Opcode.name : Opcode → Text
  | .mov => ['m', 'o', 'v']
  | .add => ['a', 'd', 'd']
  | .sub => ['s', 'u', 'b']
  | .push => ['p', 'u', 's', 'h']
  | .pop => ['p', 'o', 'p']

/-- Token 0, matched exactly and case-sensitively (R80). -/
def Opcode.ofToken? (t : Text) : Option Opcode := Opcode.all.find? (fun o => o.name == t)

/-! ### Lines and tokens -/

/-- The six whitespace characters HT, LF, VT, FF, CR and SP (R72). -/
def isSpace (c : Char) : Bool :=
  c == '\t' || c == '\n' || c == '\x0b' || c == '\x0c' || c == '\r' || c == ' '

/-- Splits at every LF (R71 step 1); `acc` is the current line, last character first. -/
def splitLinesFrom : Text → Text → List Text
  | acc, [] => [acc.reverse]
  | acc, c :: cs => if c == '\n' then acc.reverse :: splitLinesFrom [] cs else splitLinesFrom (c :: acc) cs

/-- Strips leading and trailing whitespace (R71 step 2). -/
def strip (t : Text) : Text := ((t.dropWhile isSpace).reverse.dropWhile isSpace).reverse

/-- Strips each line, numbers it from `n`, and drops the empty ones (R71 steps 2 to 4). -/
def numberLines : Nat → List Text → List SourceLine
  | _, [] => []
  | n, t :: ts => if strip t = [] then numberLines (n + 1) ts else ⟨strip t, n⟩ :: numberLines (n + 1) ts

/-- The line list L of a program text (R71). -/
def programLines (text : Text) : List SourceLine := numberLines 1 (splitLinesFrom [] text)

/-- Splits at every maximal run of whitespace; `acc` is the current token, last character first. -/
def tokensFrom : Text → Text → List Text
  | [], [] => []
  | a :: acc, [] => [(a :: acc).reverse]
  | [], c :: cs => if isSpace c then tokensFrom [] cs else tokensFrom [c] cs
  | a :: acc, c :: cs =>
    if isSpace c then (a :: acc).reverse :: tokensFrom [] cs else tokensFrom (c :: a :: acc) cs

/-- The tokens of a line (R72). -/
def tokens (line : Text) : List Text := tokensFrom [] line

/-! ### Operands -/

/-- The value of a HEXDIGIT (R76). -/
def hexDigitValue? (c : Char) : Option Nat :=
  if 48 ≤ c.toNat ∧ c.toNat ≤ 57 then some (c.toNat - 48)
  else if 97 ≤ c.toNat ∧ c.toNat ≤ 102 then some (c.toNat - 87)
  else if 65 ≤ c.toNat ∧ c.toNat ≤ 70 then some (c.toNat - 55)
  else none

/-- The natural that hex digits spell after `acc`, most significant digit first (R76). -/
def hexDigitsFrom : Nat → Text → Option Nat
  | acc, [] => some acc
  | acc, c :: cs =>
    match hexDigitValue? c with
    | some d => hexDigitsFrom (16 * acc + d) cs
    | none => none

/-- `HEXDIGIT+` (R76): at least one digit. -/
def hexDigits? : Text → Option Nat
  | [] => none
  | c :: cs => hexDigitsFrom 0 (c :: cs)

/-- A hex literal `("0x" | "0X")? HEXDIGIT+` (R76). -/
def hexLiteral? : Text → Option Nat
  | '0' :: 'x' :: ds => hexDigits? ds
  | '0' :: 'X' :: ds => hexDigits? ds
  | ds => hexDigits? ds

/-- The inner text of a bracket-delimited token (R75 step 1): at least the two brackets. -/
def bracketInner? : Text → Option Text
  | '[' :: rest => if rest.getLast? = some ']' then some rest.dropLast else none
  | _ => none

/-- Classification of a source operand token, in the order of R75. -/
def classify (t : Text) : Except CoreError Operand :=
  match bracketInner? t with
  | some inner =>
    match hexLiteral? inner with
    | some a => .ok (.mem a)
    | none => .error (.invalidOperand t)
  | none =>
    match Reg.ofName? t with
    | some r => .ok (.reg r)
    | none =>
      match hexLiteral? t with
      | some n => .ok (.imm n)
      | none => .error (.invalidOperand t)

/-- A destination token must be a register name (R79, R104). -/
def destReg (t : Text) : Except CoreError Reg :=
  match Reg.ofName? t with
  | some r => .ok r
  | none => .error (.unknownRegister t)

/-! ### Decode -/

/-- What decoding a line gives: an instruction, an error raised at decode, or nothing, for a line with
no tokens, which the engine never sees and the spec gives no decoding (R114, I12; log 8). -/
inductive Decoded where
  | instr (i : Instr)
  | raises (e : CoreError)
  | noTokens
  deriving DecidableEq, Repr

/-- The two operand tokens of format OP2: dest first, then src (R103, R186). -/
def decodeOp2 (make : Reg → Operand → Instr) (dest src : Text) : Decoded :=
  match destReg dest with
  | .error e => .raises e
  | .ok d =>
    match classify src with
    | .error e => .raises e
    | .ok o => .instr (make d o)

/-- The operand token of `push`. -/
def decodeSrc1 (make : Operand → Instr) (src : Text) : Decoded :=
  match classify src with
  | .error e => .raises e
  | .ok o => .instr (make o)

/-- The operand token of `pop`. -/
def decodeDest1 (make : Reg → Instr) (dest : Text) : Decoded :=
  match destReg dest with
  | .error e => .raises e
  | .ok d => .instr (make d)

/-- The operand tokens of a known opcode: the count first (R82, R103), then each operand. -/
def decodeOperands (op : Text) : Opcode → List Text → Decoded
  | .mov, [dest, src] => decodeOp2 .mov dest src
  | .add, [dest, src] => decodeOp2 .add dest src
  | .sub, [dest, src] => decodeOp2 .sub dest src
  | .push, [src] => decodeSrc1 .push src
  | .pop, [dest] => decodeDest1 .pop dest
  | .mov, _ | .add, _ | .sub, _ | .push, _ | .pop, _ => .raises (.invalidOperands op)

/-- `decode(line)` of R103. -/
def decode (line : Text) : Decoded :=
  match tokens line with
  | [] => .noTokens
  | op :: args =>
    match Opcode.ofToken? op with
    | none => .raises (.unknownOpcode op)
    | some o => decodeOperands op o args

/-! ### Encode -/

/-- A hex digit as a character; the digits a to f in lower case (R76 admits both cases). -/
def hexChar (d : Nat) : Char :=
  ['0', '1', '2', '3', '4', '5', '6', '7', '8', '9', 'a', 'b', 'c', 'd', 'e', 'f'].getD d '0'

/-- The hex digits of `n` before the text `acc`; `fuel` bounds how many. -/
def hexTextFrom : Nat → Nat → Text → Text
  | 0, _, acc => acc
  | fuel + 1, n, acc =>
    if n < 16 then hexChar n :: acc else hexTextFrom fuel (n / 16) (hexChar (n % 16) :: acc)

/-- A natural as a hex literal without `0x` and without leading zeros (R76, R84). -/
def hexText (n : Nat) : Text := hexTextFrom (n + 1) n []

/-- A source operand as a token (R84). -/
def Operand.encode : Operand → Text
  | .imm n => hexText n
  | .reg r => r.name
  | .mem a => '[' :: (hexText a ++ [']'])

/-- A line of format OP2, operands separated by one space (R73, R84). -/
def encodeOp2 (o : Opcode) (d : Reg) (src : Operand) : Text :=
  o.name ++ ' ' :: (d.name ++ ' ' :: src.encode)

/-- An instruction as a line of program text (R84). A port call is spelled by no line (R87). -/
def encode : Instr → Option Text
  | .mov d src => some (encodeOp2 .mov d src)
  | .add d src => some (encodeOp2 .add d src)
  | .sub d src => some (encodeOp2 .sub d src)
  | .push src => some (Opcode.push.name ++ ' ' :: src.encode)
  | .pop d => some (Opcode.pop.name ++ ' ' :: d.name)
  | .portGet _ | .portSet _ _ | .portAdd _ _ | .portSub _ _ | .portMul _ _ | .portDiv _ _
  | .portAnd _ _ | .portOr _ _ | .portXor _ _ | .portShl _ _ | .portShr _ _ | .portRol _ _
  | .portRor _ _ | .portReadByte _ | .portWriteByte _ _ | .portReadWord _ | .portWriteWord _ _
  | .portReadDword _ | .portWriteDword _ _ | .portReadByteSeg _ _ | .portWriteByteSeg _ _ _
  | .portReadWordSeg _ _ | .portWriteWordSeg _ _ _ | .portReadDwordSeg _ _
  | .portWriteDwordSeg _ _ _ => none

/-! ### The host's number form of a line -/

/-- The text of `nbits` bits of `w`: one character per byte, the least significant byte first. The
hardware has no binary form (R4, R70): this is only how the host's fixed names hand a line over.
DESIGN CHOICE (log 1), safe. -/
def wordText (nbits w : Nat) : Text :=
  (List.range (nbits / 8)).map (fun k => Char.ofNat (w / 2 ^ (8 * k) % 256))

/-- The instruction decoded from a text of one line, if it has just one line and that line is legal. -/
def decodeTableWord (nbits w : Nat) : Option Instr :=
  match programLines (wordText nbits w) with
  | [l] =>
    match decode l.text with
    | .instr i => some i
    | .raises _ => none
    | .noTokens => none
  | _ => none

end Sys2Proof
end

