-- ==== Sys2Proof/Config.lean ====
section
/-! DEFINITION. What an implementation of the CORE fixes: MEM_SIZE (spec/00_scope.md R9), and what a
byte of memory reads as that a state does not list. -/

namespace Sys2Proof

/-- MEM_SIZE - 1 of the machine `State.reset` describes. OPEN parameter (R9, R211, D12): it has no body,
so no proof can use a value of it. DESIGN CHOICE (log 3), safe. -/
opaque Config.lastAddress : U32

/-- MEM_SIZE of the machine `State.reset` describes: some natural in [1, 2^32] (R211). -/
def Config.memSize : Nat := Config.lastAddress.toNat + 1

/-- What an address that a memory does not list reads as. DESIGN CHOICE (log 2), unsafe for
`State.reset` only: the spec leaves MEM_INIT open (R35, D13). `State.construct` takes any MEM_INIT. -/
def Config.unlistedByte : U8 := 0

end Sys2Proof
end

