-- ==== Sys2Proof/Machine/State.lean ====
section
/-! DEFINITION. The state of the CORE as plain data (spec/10_state.md R31, R35, R39), why a step can
stop, and the state at construction. -/

namespace Sys2Proof.Machine

/-- The register file (R20): eight independent 32-bit cells. -/
structure RegFile where
  eax : U32
  ebx : U32
  ecx : U32
  edx : U32
  esp : U32
  ebp : U32
  esi : U32
  edi : U32
  deriving DecidableEq, Repr

/-- Memory `M` (R31, R40) as the listed bytes; an address that is not listed reads as
`Config.unlistedByte`. -/
abbrev Memory := List Host.Cell

/-- The canonical form: addresses strictly rising, no entry equal to what an unlisted address reads as. -/
abbrev Memory.wf (m : Memory) : Prop :=
  m.Pairwise (fun c d => c.1 < d.1) ∧ ∀ c ∈ m, c.2 ≠ Config.unlistedByte

/-- The fault record of R189. Its kind, code and info are views of `error` (R180, Ops.lean). -/
structure FaultRecord where
  error  : CoreError
  pc     : Nat
  lineno : Nat
  text   : Text
  deriving DecidableEq, Repr

/-- The hidden run state of R31. `done` and `faulted` last until `execute_program` has returned that outcome
(R100); between runs it is `idle` (R200; log 9). -/
inductive RunState where
  | idle
  | running (lines : List SourceLine) (pc : Nat)
  | done
  | faulted (record : FaultRecord)
  deriving DecidableEq, Repr

/-- What a port operation answers (R33, R37, R100, R191). An operation with no stated value answers
`completed`: DESIGN CHOICE (log 5, log 11), safe. -/
inductive PortResult where
  | completed
  | u8 (v : U8)
  | u16 (v : U16)
  | u32 (v : U32)
  | registers (listing : List (Reg × U32))
  | failed (e : CoreError)
  | runDone
  | runFaulted (record : FaultRecord)
  deriving DecidableEq, Repr

/-- The machine. The last four fields are the model's own: what waits at the ports and what they
answered last (log 4, 5, 6). -/
structure State where
  /-- The register file (R20). -/
  regs : RegFile
  /-- Memory M (R31, R40). -/
  mem : Memory
  /-- MEM_SIZE of this machine, fixed at construction (R35, R211). -/
  memSize : Nat
  /-- The hidden run state (R31). -/
  run : RunState
  /-- The host calls issued and not yet begun, oldest first (R34, R59). -/
  requests : List Request
  /-- The answer of the last port call or run (R33, R110, R191). -/
  result : Option PortResult
  /-- The viewer's turns, next first (R36, R59); none left means that it does not read. -/
  viewer : List ViewerTurn
  /-- The answer of the viewer's last read (R36). -/
  viewerResult : Option PortResult
  deriving DecidableEq, Repr

/-- Why the machine stops. No event of the spec is here: an error of R180 is a next state (R188, R191). -/
inductive Fault where
  /-- A program-text instruction is to run, or a line to be fetched, and the run state names no line:
  no run in progress, or a position past the end of L. Raised by the meanings of mov, add, sub, push
  and pop and by the fetch, in states no run reaches. Safe (log 7). -/
  | noCurrentLine
  deriving DecidableEq, Repr

/-- Why the machine answers nothing. -/
inductive Refusal where
  /-- An instruction that has no meaning yet. No arm raises it. Safe. -/
  | notModelled (mnemonic : String)
  /-- The line to decode has no tokens, a call the spec does not give (R114, I12). Raised by the
  fetch, in states no run reaches, since blank lines are dropped (R71). Safe (log 8). -/
  | lineWithoutTokens
  deriving DecidableEq, Repr

/-- All registers 0 (R35). -/
def RegFile.zero : RegFile := ⟨0, 0, 0, 0, 0, 0, 0, 0⟩

/-- The machine right after construction (R35, R210): registers 0, no run in progress. MEM_SIZE is the
open parameter `Config.memSize` (log 3). MEM_INIT is open: here nothing is listed (log 2);
`State.construct` (Ops.lean) takes any MEM_SIZE and MEM_INIT. -/
def State.reset : State where
  regs := RegFile.zero
  mem := []
  memSize := Config.memSize
  run := .idle
  requests := []
  result := none
  viewer := []
  viewerResult := none

end Sys2Proof.Machine
end

