-- ==== Sys2Proof/Machine/Ops.lean ====
section
/-! DEFINITION. The shared operations over the state: registers, memory (spec/00_scope.md R13, R14),
segment addresses (20_memory.md R50), construction (10_state.md R35), the error table (60_exceptions.md
R180), finishing a line, taking an error in a run (R188, R189), returning from a run (R100, R110) and
answering at a port (R191). -/

namespace Sys2Proof.Machine

/-! ### Errors -/

/-- The kind of an error (R180). -/
def errorKind : CoreError → ErrorKind
  | .unknownOpcode _ => .unknownOpcode
  | .invalidOperands _ => .invalidOperands
  | .invalidOperand _ => .invalidOperand
  | .unknownRegister _ => .unknownRegister
  | .outOfBounds _ => .outOfBounds
  | .divisionByZero => .divisionByZero
  | .invalidShiftAmount _ => .invalidShiftAmount

/-- The code of an error kind (R180). -/
def errorCode : ErrorKind → Nat
  | .unknownOpcode => 1
  | .invalidOperands => 2
  | .invalidOperand => 3
  | .unknownRegister => 4
  | .outOfBounds => 5
  | .divisionByZero => 6
  | .invalidShiftAmount => 7

/-- The information an error records (R180). -/
def errorInfo : CoreError → ErrorInfo
  | .unknownOpcode op => .token op
  | .invalidOperands op => .token op
  | .invalidOperand t => .token t
  | .unknownRegister name => .token name
  | .outOfBounds a => .address a
  | .divisionByZero => .nothing
  | .invalidShiftAmount n => .amount n

/-- `kind` of a fault record (R189). -/
def FaultRecord.kind (rec : FaultRecord) : ErrorKind := errorKind rec.error

/-- `code` of a fault record (R189). -/
def FaultRecord.code (rec : FaultRecord) : Nat := errorCode rec.kind

/-- `info` of a fault record (R189). -/
def FaultRecord.info (rec : FaultRecord) : ErrorInfo := errorInfo rec.error

/-! ### Updates of one part of the state -/

/-- The run state becomes `o` (R31). -/
def State.setRun (s : State) (o : RunState) : State := { s with run := o }

/-- Memory becomes `m`. -/
def State.setMem (s : State) (m : Memory) : State := { s with mem := m }

/-- The host calls not yet begun become `rs` (log 4). -/
def State.setRequests (s : State) (rs : List Request) : State := { s with requests := rs }

/-- The viewer's turns to come become `vs` (log 6). -/
def State.setViewer (s : State) (vs : List ViewerTurn) : State := { s with viewer := vs }

/-- The viewer gets an answer (R36). -/
def State.answerViewer (s : State) (p : PortResult) : State := { s with viewerResult := some p }

/-- The host gets an answer at its port (R33, R191). -/
def State.answer (s : State) (p : PortResult) : State := { s with result := some p }

/-! ### Registers -/

/-- `x[r]` on a register file (R12). -/
def RegFile.get (f : RegFile) : Reg → U32
  | .eax => f.eax
  | .ebx => f.ebx
  | .ecx => f.ecx
  | .edx => f.edx
  | .esp => f.esp
  | .ebp => f.ebp
  | .esi => f.esi
  | .edi => f.edi

/-- `x[r] <- v` on a register file (R12); no register aliases another (R20). -/
def RegFile.set (f : RegFile) (r : Reg) (v : U32) : RegFile :=
  match r with
  | .eax => { f with eax := v }
  | .ebx => { f with ebx := v }
  | .ecx => { f with ecx := v }
  | .edx => { f with edx := v }
  | .esp => { f with esp := v }
  | .ebp => { f with ebp := v }
  | .esi => { f with esi := v }
  | .edi => { f with edi := v }

/-- `x[r]`. -/
def State.getReg (s : State) (r : Reg) : U32 := s.regs.get r

/-- `x[r] <- v`. A natural is written through `trunc32` (R22). -/
def State.setReg (s : State) (r : Reg) (v : U32) : State := { s with regs := s.regs.set r v }

/-- The eight registers with their values, in the dump's order (R37). -/
def State.registerListing (s : State) : List (Reg × U32) := Reg.all.map (fun r => (r, s.getReg r))

/-! ### Memory -/

/-- `M[a]`: the listed byte, or what an unlisted address reads as. -/
def Memory.read : Memory → Nat → U8
  | [], _ => Config.unlistedByte
  | (b, v) :: rest, a => if b = a then v else Memory.read rest a

/-- A cell put before a list, unless its byte is what an unlisted address reads as. -/
def Memory.put (a : Nat) (v : U8) (m : Memory) : Memory := if v = Config.unlistedByte then m else (a, v) :: m

/-- `M[a] <- v`, keeping the canonical form. -/
def Memory.write : Memory → Nat → U8 → Memory
  | [], a, v => Memory.put a v []
  | (b, w) :: rest, a, v =>
    if a < b then Memory.put a v ((b, w) :: rest)
    else if a = b then Memory.put a v rest
    else (b, w) :: Memory.write rest a v

/-- The sum over i < n of `M[a+i] * 2^(8i)`: little-endian (R13, R42). -/
def Memory.readBytes (m : Memory) (a : Nat) : Nat → Nat
  | 0 => 0
  | n + 1 => (m.read a).toNat + 256 * Memory.readBytes m (a + 1) n

/-- `M[a+i] <- v[8i+7:8i]` for i < n: little-endian (R14, R42). -/
def Memory.writeBytes (m : Memory) (a : Nat) : Nat → Nat → Memory
  | 0, _ => m
  | n + 1, v => Memory.writeBytes (m.write a (trunc8 v)) (a + 1) n (v / 256)

/-- The memory of `size` bytes that holds `init`, and lists nothing beyond. -/
def Memory.ofInit (init : Nat → U8) : Nat → Memory
  | 0 => []
  | n + 1 => (Memory.ofInit init n).write n (init n)

/-- `M[a]` in a state. -/
def State.byteAt (s : State) (a : Nat) : U8 := s.mem.read a

/-- `MemRead(addr, n)` of R13. For n ≥ 1, `addr + n - 1 >= MEM_SIZE` is `¬ addr + n ≤ memSize`. -/
def State.memRead (s : State) (addr n : Nat) : Except CoreError Nat :=
  if addr + n ≤ s.memSize then .ok (s.mem.readBytes addr n) else .error (.outOfBounds addr)

/-- `MemWrite(addr, n, v)` of R14: all bytes or none. -/
def State.memWrite (s : State) (addr n v : Nat) : Except CoreError State :=
  if addr + n ≤ s.memSize then .ok (s.setMem (s.mem.writeBytes addr n v))
  else .error (.outOfBounds addr)

/-- `lin(segment, offset)` of R50: exact, no wrap (R52). -/
def linearAddress (segment offset : Nat) : Nat := segment * 16 + offset

/-! ### Construction -/

/-- Construction with MEM_SIZE = `size` and MEM_INIT = `init` (R35, R210, R217). -/
def State.construct (size : Nat) (init : Nat → U8) : State :=
  { State.reset with mem := Memory.ofInit init size, memSize := size }

/-! ### The end of a line -/

/-- The instruction of the current line has completed: `pc <- pc + 1`, nothing else (R107). -/
def completeLine (s : State) : Host.Outcome State Fault Refusal :=
  match s.run with
  | .running lines pc =>
    if pc < lines.length then .next (s.setRun (.running lines (pc + 1))) else .fault .noCurrentLine
  | .idle | .done | .faulted _ => .fault .noCurrentLine

/-- The state in which a run has ended with a fault record (R188, R189); the host gets it when
`execute_program` returns (Engine.lean, `returnRun`). -/
def State.endFaulted (s : State) (record : FaultRecord) : State := s.setRun (.faulted record)

/-- TAKING AN ERROR IN A RUN (R108, R188, R189): the run state becomes Faulted with the record of the
current line, and registers and memory stay as `s` has them. There is no handler, no saved register and
no return from a trap (R188, R192). -/
def raiseInRun (e : CoreError) (s : State) : Host.Outcome State Fault Refusal :=
  match s.run with
  | .running lines pc =>
    match lines[pc]? with
    | some line => .next (s.endFaulted ⟨e, pc, line.lineno, line.text⟩)
    | none => .fault .noCurrentLine
  | .idle | .done | .faulted _ => .fault .noCurrentLine

/-- `execute_program` returns the outcome of the run to the host (R100, R110, R188), and the run state is
`Idle` again, as it is between runs; everything else survives (R31, R200; log 9). -/
def returnRun (outcome : PortResult) (s : State) : State := (s.setRun .idle).answer outcome

end Sys2Proof.Machine
end

