-- ==== Sys2Proof/Machine/MemoryPort.lean ====
section
/-! DEFINITION. The memory ports (spec/20_memory.md R44 to R53): six flat accessors and six
segment-relative ones, and the viewer's read (10_state.md R36). Each call answers its caller and is a
next state, an error too (60_exceptions.md R191). -/

namespace Sys2Proof.Machine

/-- The answer of a read of `n` bytes; `f` gives the value its width. -/
def readAnswer (s : State) (address n : Nat) (f : Nat → PortResult) : PortResult :=
  match s.memRead address n with
  | .ok v => f v
  | .error e => .failed e

/-- A read answers and changes nothing else (R58). -/
def readPort (address n : Nat) (f : Nat → PortResult) (s : State) : State :=
  s.answer (readAnswer s address n f)

/-- A write lands whole or not at all (R57). -/
def writePort (address n v : Nat) (s : State) : State :=
  match s.memWrite address n v with
  | .ok t => t.answer .completed
  | .error e => s.answer (.failed e)

/-- `read_byte(address)` (R44). -/
def execPortReadByte (address : Nat) (s : State) : Host.Outcome State Fault Refusal :=
  .next (readPort address 1 (fun v => .u8 (BitVec.ofNat 8 v)) s)

/-- `write_byte(address, byte)` (R45). -/
def execPortWriteByte (address : Nat) (value : U8) (s : State) : Host.Outcome State Fault Refusal :=
  .next (writePort address 1 value.toNat s)

/-- `read_word(address)` (R46). -/
def execPortReadWord (address : Nat) (s : State) : Host.Outcome State Fault Refusal :=
  .next (readPort address 2 (fun v => .u16 (BitVec.ofNat 16 v)) s)

/-- `write_word(address, value)` (R47). -/
def execPortWriteWord (address : Nat) (value : U16) (s : State) : Host.Outcome State Fault Refusal :=
  .next (writePort address 2 value.toNat s)

/-- `read_dword(address)` (R48). -/
def execPortReadDword (address : Nat) (s : State) : Host.Outcome State Fault Refusal :=
  .next (readPort address 4 (fun v => .u32 (BitVec.ofNat 32 v)) s)

/-- `write_dword(address, value)` (R49). -/
def execPortWriteDword (address : Nat) (value : U32) (s : State) : Host.Outcome State Fault Refusal :=
  .next (writePort address 4 value.toNat s)

/-- `read_byte_seg(s, o)` (R51). -/
def execPortReadByteSeg (segment offset : Nat) (s : State) : Host.Outcome State Fault Refusal :=
  execPortReadByte (linearAddress segment offset) s

/-- `write_byte_seg(s, o, v)` (R51). -/
def execPortWriteByteSeg (segment offset : Nat) (value : U8) (s : State) :
    Host.Outcome State Fault Refusal :=
  execPortWriteByte (linearAddress segment offset) value s

/-- `read_word_seg(s, o)` (R51). -/
def execPortReadWordSeg (segment offset : Nat) (s : State) : Host.Outcome State Fault Refusal :=
  execPortReadWord (linearAddress segment offset) s

/-- `write_word_seg(s, o, v)` (R51). -/
def execPortWriteWordSeg (segment offset : Nat) (value : U16) (s : State) :
    Host.Outcome State Fault Refusal :=
  execPortWriteWord (linearAddress segment offset) value s

/-- `read_dword_seg(s, o)` (R51). -/
def execPortReadDwordSeg (segment offset : Nat) (s : State) : Host.Outcome State Fault Refusal :=
  execPortReadDword (linearAddress segment offset) s

/-- `write_dword_seg(s, o, v)` (R51). -/
def execPortWriteDwordSeg (segment offset : Nat) (value : U32) (s : State) :
    Host.Outcome State Fault Refusal :=
  execPortWriteDword (linearAddress segment offset) value s

/-- The viewer's `read_byte(segment, offset)` (R36): the byte read of R51, answered to the viewer. -/
def viewerRead (segment offset : Nat) (s : State) : State :=
  s.answerViewer (readAnswer s (linearAddress segment offset) 1 (fun v => .u8 (BitVec.ofNat 8 v)))

end Sys2Proof.Machine
end

