-- ==== Sys2Proof/Machine/Alu.lean ====
section
/-! DEFINITION. The operation functions `f_op(a, b)` of the register port and their checks
(spec/43_alu_ops.md R152 to R164). Results are modulo 2^32; nothing is signed (R166). -/

namespace Sys2Proof.Machine

/-- R131, R153. -/
def aluAdd (a b : U32) : U32 := a + b

/-- R132, R154. -/
def aluSub (a b : U32) : U32 := a - b

/-- R155: the low 32 bits of the unsigned product. -/
def aluMul (a b : U32) : U32 := a * b

/-- R156: unsigned quotient, rounded down; a zero divisor raises. -/
def aluDiv (a b : U32) : Except CoreError U32 := if b = 0 then .error .divisionByZero else .ok (a / b)

/-- R157. -/
def aluAnd (a b : U32) : U32 := a &&& b

/-- R158. -/
def aluOr (a b : U32) : U32 := a ||| b

/-- R159. -/
def aluXor (a b : U32) : U32 := a ^^^ b

/-- The shift-amount rule, for shl, shr, rol and ror (R160). -/
def checkShift (n : Nat) (v : U32) : Except CoreError U32 :=
  if n < 32 then .ok v else .error (.invalidShiftAmount n)

/-- R161. -/
def aluShl (a : U32) (n : Nat) : Except CoreError U32 := checkShift n (a <<< n)

/-- R162: zeros come in at the top. -/
def aluShr (a : U32) (n : Nat) : Except CoreError U32 := checkShift n (a >>> n)

/-- R163. -/
def aluRol (a : U32) (n : Nat) : Except CoreError U32 := checkShift n (a <<< n ||| a >>> (32 - n))

/-- R164. -/
def aluRor (a : U32) (n : Nat) : Except CoreError U32 := checkShift n (a >>> n ||| a <<< (32 - n))

end Sys2Proof.Machine
end

