-- ==== Sys2Proof/Machine/Operands.lean ====
section
/-! DEFINITION. Operand resolution (spec/40_dispatch.md R106, 30_encoding.md R81): the three forms of a
source operand. A destination is always a register (R79). -/

namespace Sys2Proof.Machine

/-- `resolve(s)` of R106. Its only error is OutOfBounds of a memory reference. -/
def resolve (src : Operand) (s : State) : Except CoreError U32 :=
  match src with
  | .imm n => .ok (trunc32 n)
  | .reg r => .ok (s.getReg r)
  | .mem a =>
    match s.memRead a 1 with
    | .ok v => .ok (trunc32 v)
    | .error e => .error e

end Sys2Proof.Machine
end

