-- ==== Sys2Proof/Machine/MovAddSub.lean ====
section
/-! DEFINITION. `mov`, `add` and `sub` (spec/41_mov_add_sub.md). -/

namespace Sys2Proof.Machine

/-- Both operands are read before the destination is written (R134); an error leaves all as it was
(R109). -/
def twoOperand (f : U32 → U32 → U32) (d : Reg) (src : Operand) (s : State) :
    Host.Outcome State Fault Refusal :=
  match resolve src s with
  | .ok b => completeLine (s.setReg d (f (s.getReg d) b))
  | .error e => raiseInRun e s

/-- `mov dest src` (R130). -/
def execMov (d : Reg) (src : Operand) (s : State) : Host.Outcome State Fault Refusal :=
  twoOperand (fun _ b => b) d src s

/-- `add dest src` (R131). -/
def execAdd (d : Reg) (src : Operand) (s : State) : Host.Outcome State Fault Refusal :=
  twoOperand aluAdd d src s

/-- `sub dest src` (R132). -/
def execSub (d : Reg) (src : Operand) (s : State) : Host.Outcome State Fault Refusal :=
  twoOperand aluSub d src s

end Sys2Proof.Machine
end

