-- ==== Sys2Proof/Machine/RegisterPort.lean ====
section
/-! DEFINITION. The register port (spec/43_alu_ops.md): get, set and the eleven operations. Each call
answers its caller and is a next state, an error too (60_exceptions.md R191). -/

namespace Sys2Proof.Machine

/-- The common form of R152: the name first, then the operation's own check, then the write. An error
changes nothing but the answer. -/
def registerOp (name : Text) (f : U32 → Except CoreError U32) (s : State) : State :=
  match Reg.ofName? name with
  | none => s.answer (.failed (.unknownRegister name))
  | some r =>
    match f (s.getReg r) with
    | .error e => s.answer (.failed e)
    | .ok v => (s.setReg r v).answer .completed

/-- `get(name)` (R150). -/
def execPortGet (name : Text) (s : State) : Host.Outcome State Fault Refusal :=
  match Reg.ofName? name with
  | none => .next (s.answer (.failed (.unknownRegister name)))
  | some r => .next (s.answer (.u32 (s.getReg r)))

/-- `set(name, value)` (R151): stores `trunc32(value)`. -/
def execPortSet (name : Text) (value : Nat) (s : State) : Host.Outcome State Fault Refusal :=
  .next (registerOp name (fun _ => .ok (trunc32 value)) s)

/-- `add(name, b)` (R153). -/
def execPortAdd (name : Text) (b : U32) (s : State) : Host.Outcome State Fault Refusal :=
  .next (registerOp name (fun a => .ok (aluAdd a b)) s)

/-- `sub(name, b)` (R154). -/
def execPortSub (name : Text) (b : U32) (s : State) : Host.Outcome State Fault Refusal :=
  .next (registerOp name (fun a => .ok (aluSub a b)) s)

/-- `mul(name, b)` (R155). -/
def execPortMul (name : Text) (b : U32) (s : State) : Host.Outcome State Fault Refusal :=
  .next (registerOp name (fun a => .ok (aluMul a b)) s)

/-- `div(name, b)` (R156). -/
def execPortDiv (name : Text) (b : U32) (s : State) : Host.Outcome State Fault Refusal :=
  .next (registerOp name (fun a => aluDiv a b) s)

/-- `and(name, b)` (R157). -/
def execPortAnd (name : Text) (b : U32) (s : State) : Host.Outcome State Fault Refusal :=
  .next (registerOp name (fun a => .ok (aluAnd a b)) s)

/-- `or(name, b)` (R158). -/
def execPortOr (name : Text) (b : U32) (s : State) : Host.Outcome State Fault Refusal :=
  .next (registerOp name (fun a => .ok (aluOr a b)) s)

/-- `xor(name, b)` (R159). -/
def execPortXor (name : Text) (b : U32) (s : State) : Host.Outcome State Fault Refusal :=
  .next (registerOp name (fun a => .ok (aluXor a b)) s)

/-- `shl(name, n)` (R161). -/
def execPortShl (name : Text) (n : Nat) (s : State) : Host.Outcome State Fault Refusal :=
  .next (registerOp name (fun a => aluShl a n) s)

/-- `shr(name, n)` (R162). -/
def execPortShr (name : Text) (n : Nat) (s : State) : Host.Outcome State Fault Refusal :=
  .next (registerOp name (fun a => aluShr a n) s)

/-- `rol(name, n)` (R163). -/
def execPortRol (name : Text) (n : Nat) (s : State) : Host.Outcome State Fault Refusal :=
  .next (registerOp name (fun a => aluRol a n) s)

/-- `ror(name, n)` (R164). -/
def execPortRor (name : Text) (n : Nat) (s : State) : Host.Outcome State Fault Refusal :=
  .next (registerOp name (fun a => aluRor a n) s)

end Sys2Proof.Machine
end

