-- ==== Sys2Proof/Machine/Stack.lean ====
section
/-! DEFINITION. `push` and `pop` (spec/42_stack.md): esp moves by 4, one byte moves (R146, R147). -/

namespace Sys2Proof.Machine

/-- The state after the first action of `push`: esp decremented (R140). -/
def pushSlot (s : State) : State := s.setReg .esp (s.getReg .esp - 4)

/-- `push src` (R140): decrement, then resolve, then write the low byte (R141). An error in either of
the last two keeps the decrement (R142). -/
def execPush (src : Operand) (s : State) : Host.Outcome State Fault Refusal :=
  match resolve src (pushSlot s) with
  | .error e => raiseInRun e (pushSlot s)
  | .ok v =>
    match (pushSlot s).memWrite ((pushSlot s).getReg .esp).toNat 1 (v.toNat % 2 ^ 8) with
    | .error e => raiseInRun e (pushSlot s)
    | .ok t => completeLine t

/-- The last action of `pop`: esp incremented, read after the write to dest (R143, R144). -/
def popSlot (s : State) : State := s.setReg .esp (s.getReg .esp + 4)

/-- `pop dest` (R143): read one byte, write it zero-extended to dest, then increment esp. -/
def execPop (d : Reg) (s : State) : Host.Outcome State Fault Refusal :=
  match s.memRead (s.getReg .esp).toNat 1 with
  | .error e => raiseInRun e s
  | .ok v => completeLine (popSlot (s.setReg d (trunc32 v)))

end Sys2Proof.Machine
end

