-- ==== Sys2Proof/Machine/Dispatch.lean ====
section
/-! DEFINITION. Dispatch (spec/40_dispatch.md R105): each instruction to its one meaning. -/

namespace Sys2Proof.Machine

def exec (i : Instr) (s : State) : Host.Outcome State Fault Refusal :=
  match i with
  -- program text
  | .mov d src => Sys2Proof.Machine.execMov d src s
  | .add d src => Sys2Proof.Machine.execAdd d src s
  | .sub d src => Sys2Proof.Machine.execSub d src s
  | .push src => Sys2Proof.Machine.execPush src s
  | .pop d => Sys2Proof.Machine.execPop d s
  -- register port
  | .portGet name => Sys2Proof.Machine.execPortGet name s
  | .portSet name value => Sys2Proof.Machine.execPortSet name value s
  | .portAdd name b => Sys2Proof.Machine.execPortAdd name b s
  | .portSub name b => Sys2Proof.Machine.execPortSub name b s
  | .portMul name b => Sys2Proof.Machine.execPortMul name b s
  | .portDiv name b => Sys2Proof.Machine.execPortDiv name b s
  | .portAnd name b => Sys2Proof.Machine.execPortAnd name b s
  | .portOr name b => Sys2Proof.Machine.execPortOr name b s
  | .portXor name b => Sys2Proof.Machine.execPortXor name b s
  | .portShl name n => Sys2Proof.Machine.execPortShl name n s
  | .portShr name n => Sys2Proof.Machine.execPortShr name n s
  | .portRol name n => Sys2Proof.Machine.execPortRol name n s
  | .portRor name n => Sys2Proof.Machine.execPortRor name n s
  -- memory ports
  | .portReadByte address => Sys2Proof.Machine.execPortReadByte address s
  | .portWriteByte address value => Sys2Proof.Machine.execPortWriteByte address value s
  | .portReadWord address => Sys2Proof.Machine.execPortReadWord address s
  | .portWriteWord address value => Sys2Proof.Machine.execPortWriteWord address value s
  | .portReadDword address => Sys2Proof.Machine.execPortReadDword address s
  | .portWriteDword address value => Sys2Proof.Machine.execPortWriteDword address value s
  | .portReadByteSeg segment offset => Sys2Proof.Machine.execPortReadByteSeg segment offset s
  | .portWriteByteSeg segment offset value => Sys2Proof.Machine.execPortWriteByteSeg segment offset value s
  | .portReadWordSeg segment offset => Sys2Proof.Machine.execPortReadWordSeg segment offset s
  | .portWriteWordSeg segment offset value => Sys2Proof.Machine.execPortWriteWordSeg segment offset value s
  | .portReadDwordSeg segment offset => Sys2Proof.Machine.execPortReadDwordSeg segment offset s
  | .portWriteDwordSeg segment offset value => Sys2Proof.Machine.execPortWriteDwordSeg segment offset value s

end Sys2Proof.Machine
end

