-- ==== Sys2Proof/Machine/Engine.lean ====
section
/-! DEFINITION. The engine around the meanings: one step of a run (spec/40_dispatch.md R102, R108), the
return of its outcome (R100, R110), the host's next call between runs (10_state.md R31, R33, R34), and the
viewer's turns (20_memory.md R59). -/

namespace Sys2Proof.Machine

/-- `execute_program(text)` begins: the run state becomes `Running(L, 0)` (R100). Registers and memory
stay as the last run or call left them (R112). -/
def beginRun (text : Text) (s : State) : State := s.setRun (.running (programLines text) 0)

/-- The run ends with `Done` (R102). -/
def endRun (s : State) : State := s.setRun .done

/-- Decode and execute the fetched line; an error at decode is taken as one at execute is (R108). -/
def runLine (line : SourceLine) (s : State) : Host.Outcome State Fault Refusal :=
  match decode line.text with
  | .instr i => exec i s
  | .raises e => raiseInRun e s
  | .noTokens => .refused .lineWithoutTokens

/-- `step()` of R108 in `Running(lines, pc)`: at the end of L the run is done (R102). -/
def stepRun (lines : List SourceLine) (pc : Nat) (s : State) : Host.Outcome State Fault Refusal :=
  match lines[pc]? with
  | some line => runLine line s
  | none => if pc = lines.length then .next (endRun s) else .fault .noCurrentLine

/-- Between runs the host's oldest call is served, whole (R34). With no call the CORE executes
nothing (R212). -/
def serveHost (s : State) : Host.Outcome State Fault Refusal :=
  match s.requests with
  | [] => .next s
  | .call i :: rest => exec i (s.setRequests rest)
  | .executeProgram text :: rest => .next (beginRun text (s.setRequests rest))
  | .dump :: rest => .next ((s.setRequests rest).answer (.registers s.registerListing))

/-- The CORE's next whole operation. Until `execute_program` has returned, no port but the viewer's is
served (R34, R108). -/
def stepCore (s : State) : Host.Outcome State Fault Refusal :=
  match s.run with
  | .running lines pc => stepRun lines pc s
  | .done => .next (returnRun .runDone s)
  | .faulted record => .next (returnRun (.runFaulted record) s)
  | .idle => serveHost s

/-- The viewer's turn, if it has one, then the CORE: a viewer read falls between two whole operations
(R59) and takes a step of its own. -/
def stepEngine (s : State) : Host.Outcome State Fault Refusal :=
  match s.viewer with
  | .read segment offset :: rest => .next (viewerRead segment offset (s.setViewer rest))
  | .pass :: rest => stepCore (s.setViewer rest)
  | [] => stepCore s

end Sys2Proof.Machine
end

