-- ==== Sys2Proof/Machine/Step.lean ====
section
/-! DEFINITION. The step of the machine, and how a line is put where the next step fetches it. -/

namespace Sys2Proof.Machine

/-- One step: a turn of the viewer, a step of a run, or a call of the host (Engine.lean). -/
def step (s : State) : Host.Outcome State Fault Refusal := stepEngine s

/-- `s` with a run in progress at the first line of the text that the bits of `w` spell, and no turn
of the viewer before it: what `execute_program` of that text leaves after its first action (R100).
The program is not in memory (R62). Log 1, log 4. -/
def State.withFetchWord (s : State) (nbits w : Nat) : State :=
  (beginRun (wordText nbits w) s).setViewer []

end Sys2Proof.Machine
end

