-- ==== Sys2Proof/WellFormed.lean ====
section
/-! DEFINITION. Which terms of the syntax can occur. Every term of `Instr` is a legal instruction or a
legal call (R88, R45: a value of another width cannot be written down), so nothing is checked of one
instruction; what is checked is where an instruction may stand, and the form of a line list (R71). -/

namespace Sys2Proof

/-- The instruction is a line of program text, `decodable` in the opcode table (R87). -/
def Instr.textual : Instr → Bool
  | .mov _ _ | .add _ _ | .sub _ _ | .push _ | .pop _ => true
  | .portGet _ | .portSet _ _ | .portAdd _ _ | .portSub _ _ | .portMul _ _ | .portDiv _ _
  | .portAnd _ _ | .portOr _ _ | .portXor _ _ | .portShl _ _ | .portShr _ _ | .portRol _ _
  | .portRor _ _ | .portReadByte _ | .portWriteByte _ _ | .portReadWord _ | .portWriteWord _ _
  | .portReadDword _ | .portWriteDword _ _ | .portReadByteSeg _ _ | .portWriteByteSeg _ _ _
  | .portReadWordSeg _ _ | .portWriteWordSeg _ _ _ | .portReadDwordSeg _ _
  | .portWriteDwordSeg _ _ _ => false

/-- The instruction is a host-port call, reached by no line of text (R87). -/
def Instr.port (i : Instr) : Bool := !i.textual

/-- A host call carries a port operation: the five opcodes are reached by the program port only (R33). -/
def Request.wellFormed : Request → Bool
  | .call i => i.port
  | .executeProgram _ => true
  | .dump => true

/-- The first and the last character of a text are not whitespace, and there are some (R71). -/
def Text.stripped (t : Text) : Bool :=
  match t.head?, t.getLast? with
  | some c, some d => !isSpace c && !isSpace d
  | _, _ => false

/-- A line of L: stripped, not blank, with no line end inside, numbered from 1 (R71). -/
def SourceLine.wellFormed (l : SourceLine) : Bool :=
  Text.stripped l.text && !l.text.contains '\n' && decide (1 ≤ l.lineno)

/-- A line list L: well-formed lines in text order, so that the line numbers rise (R71, R101). -/
abbrev linesWellFormed (ls : List SourceLine) : Prop :=
  (∀ l ∈ ls, l.wellFormed = true) ∧ ls.Pairwise (fun l k => l.lineno < k.lineno)

end Sys2Proof
end

