-- ==== Sys2Proof/Safety.lean ====
section
/-! DEFINITION. The terms claims are stated in: the grammar of operands as relations (spec/30_encoding.md
R76, R84), the invariant of a machine that runs as the spec says, and what a run is between steps. -/

namespace Sys2Proof

/-- `c` is the HEXDIGIT of value `d`, in either case (R76). -/
def HexDigit (c : Char) (d : Nat) : Prop :=
  "0123456789abcdef".toList[d]? = some c ∨ "0123456789ABCDEF".toList[d]? = some c

/-- `HEXDIGIT+` spelling a natural in base 16 (R76). -/
inductive HexDigits : Text → Nat → Prop where
  | single {c : Char} {d : Nat} (h : HexDigit c d) : HexDigits [c] d
  | more {ds : Text} {n : Nat} {c : Char} {d : Nat} (hs : HexDigits ds n) (h : HexDigit c d) :
      HexDigits (ds ++ [c]) (16 * n + d)

/-- A hex literal with its value: `("0x" | "0X")? HEXDIGIT+` (R76). -/
def HexLiteral (t : Text) (n : Nat) : Prop :=
  HexDigits t n ∨ ∃ ds, (t = '0' :: 'x' :: ds ∨ t = '0' :: 'X' :: ds) ∧ HexDigits ds n

/-- A token that spells an operand: `operand := reg | hexlit | "[" hexlit "]"` (R84). -/
inductive OperandSpelling : Text → Operand → Prop where
  | imm {t : Text} {n : Nat} (h : HexLiteral t n) : OperandSpelling t (.imm n)
  | reg (r : Reg) : OperandSpelling r.name (.reg r)
  | mem {t : Text} {a : Nat} (h : HexLiteral t a) : OperandSpelling ('[' :: (t ++ [']'])) (.mem a)

/-- The name is none of the eight (R23). -/
def NoRegister (name : Text) : Prop := ∀ r : Reg, name ≠ r.name

namespace Machine

/-- The run state is one a run can have: L is a line list and pc is at most its length (R27, R101). -/
def RunState.wf : RunState → Prop
  | .running lines pc => linesWellFormed lines ∧ pc ≤ lines.length
  | .idle | .done | .faulted _ => True

/-- The invariant: MEM_SIZE in its range (R211), a canonical memory with no byte outside it (R40), a run
state that can occur, and port operations only among the host's calls (R33). -/
structure State.wf (s : State) : Prop where
  sizeLow : 1 ≤ s.memSize
  sizeHigh : s.memSize ≤ 2 ^ 32
  canonical : s.mem.wf
  inside : ∀ c ∈ s.mem, c.1 < s.memSize
  runWf : s.run.wf
  requestsWf : ∀ r ∈ s.requests, r.wellFormed = true

/-- A run is in progress and `line` is its line at position `pc`. -/
def State.atLine (s : State) (lines : List SourceLine) (pc : Nat) (line : SourceLine) : Prop :=
  s.run = .running lines pc ∧ lines[pc]? = some line

/-- Between runs the run state is `Idle` (R31, R200), and host calls are served (R34). -/
def State.betweenRuns (s : State) : Prop := s.run = .idle

/-- The run state says that the run has ended; its outcome is still to be returned (R100). -/
def RunState.ended : RunState → Prop
  | .done | .faulted _ => True
  | .idle | .running _ _ => False

/-- A memory reference, if the operand is one, is in range. -/
def readable (src : Operand) (s : State) : Prop := ∀ a, src = .mem a → a < s.memSize

/-- The value of an operand in a state (R81). -/
def operandValue (src : Operand) (s : State) : U32 :=
  match src with
  | .imm n => BitVec.ofNat 32 (n % 2 ^ 32)
  | .reg r => s.getReg r
  | .mem a => (s.byteAt a).setWidth 32

/-- The state with the run at its next line. -/
abbrev State.atPosition (s : State) (lines : List SourceLine) (pc : Nat) : State :=
  s.setRun (.running lines pc)

/-- The state with the run ended by the error `e` at a line (R188). -/
abbrev State.faultedAt (s : State) (e : CoreError) (pc : Nat) (line : SourceLine) : State :=
  s.endFaulted ⟨e, pc, line.lineno, line.text⟩

/-- The address `push` stores to: esp after the decrement (R140). -/
def pushAddress (s : State) : Nat := (s.getReg .esp - 4).toNat

/-- The state without its viewer. -/
def State.withoutViewer (s : State) : State := { s with viewer := [], viewerResult := none }

end Machine

end Sys2Proof
end

