-- ==== Sys2Proof/Certificates/Slice0/Obligations.lean ====
section
/-! DEFINITION. The statements for the provers. Each docstring names the rule of spec/ it formalises, or
says that it is derived. What a port returns stands in the field `result`, `completed` where the spec
names no value (log 5, log 11); the host's calls and the viewer's turns stand in `requests` and `viewer`
(log 4, log 6). These fields are the model's way of writing the ports down. -/

open Sys2Proof Sys2Proof.Machine

/-! ### Text, tokens and operands -/

/-- R71: splitting into physical lines at LF, stripping, dropping blank lines, numbering; a CR before an
LF is stripped, and a lone CR separates tokens. -/
def Obligations.ProgramTextSplitsIntoLines : Prop :=
  (∀ t : Text, ∃ pre post, t = pre ++ strip t ++ post ∧ (∀ c ∈ pre ++ post, isSpace c = true) ∧
    (strip t = [] ∨ Text.stripped (strip t) = true)) ∧
  (∀ phys : List Text, phys ≠ [] → (∀ p ∈ phys, '\n' ∉ p) →
    programLines (List.intercalate ['\n'] phys) =
      (phys.zipIdx 1).filterMap (fun p => if strip p.1 = [] then none else some ⟨strip p.1, p.2⟩)) ∧
  (∀ a b : Text, programLines (a ++ '\r' :: '\n' :: b) = programLines (a ++ '\n' :: b)) ∧
  (∀ a b : Text, tokens (a ++ '\r' :: b) = tokens a ++ tokens b)

/-- R72: the six whitespace characters; a line is split at every maximal run of them; nothing else
separates tokens, a comma in particular. -/
def Obligations.TokensSplitAtWhitespace : Prop :=
  (∀ c : Char, isSpace c = true ↔ c.toNat ∈ [0x09, 0x0A, 0x0B, 0x0C, 0x0D, 0x20]) ∧
  isSpace ',' = false ∧
  tokens [] = [] ∧
  (∀ t : Text, t ≠ [] → (∀ c ∈ t, isSpace c = false) → tokens t = [t]) ∧
  (∀ (a b : Text) (c : Char), isSpace c = true → tokens (a ++ c :: b) = tokens a ++ tokens b)

/-- R76: the hex literal grammar, the value in base 16, and the exclusions the rule lists. -/
def Obligations.HexLiteralGrammarIsFollowed : Prop :=
  (∀ t n, hexLiteral? t = some n ↔ HexLiteral t n) ∧
  (∀ t ∈ ["".toList, "0x".toList, "+5".toList, "-5".toList, "1_0".toList, "10h".toList, "1.5".toList],
    hexLiteral? t = none)

/-- R75, R78: classification accepts just the tokens of the operand grammar, each with its operand, and
raises InvalidOperand on every other token. -/
def Obligations.ClassifyFollowsTheOperandGrammar : Prop :=
  ∀ t, (∀ o, classify t = .ok o ↔ OperandSpelling t o) ∧
    ((∀ o, ¬ OperandSpelling t o) → classify t = .error (.invalidOperand t))

/-- R86: no token is both a register name and a hex literal, since each name has a letter that is no hex
digit, and a bracketed token is neither. -/
def Obligations.NameLiteralAndBracketAreApart : Prop :=
  (∀ r : Reg, ∃ c ∈ r.name, c ∈ ['x', 's', 'p', 'i'] ∧ ∀ d, ¬ HexDigit c d) ∧
  (∀ (r : Reg) (n : Nat), ¬ HexLiteral r.name n) ∧
  (∀ t : Text, t.head? = some '[' → t.getLast? = some ']' →
    (∀ r : Reg, t ≠ r.name) ∧ ∀ n, ¬ HexLiteral t n)

/-- R82: the four kinds of illegal line, and the source's example. -/
def Obligations.IllegalLinesRaise : Prop :=
  (∀ line op args, tokens line = op :: args →
    (op ∉ ["mov".toList, "add".toList, "sub".toList, "push".toList, "pop".toList] →
      decode line = .raises (.unknownOpcode op)) ∧
    (op ∈ ["mov".toList, "add".toList, "sub".toList] → args.length ≠ 2 →
      decode line = .raises (.invalidOperands op)) ∧
    (op ∈ ["push".toList, "pop".toList] → args.length ≠ 1 →
      decode line = .raises (.invalidOperands op)) ∧
    (op ∈ ["mov".toList, "add".toList, "sub".toList] → ∀ d src, args = [d, src] → NoRegister d →
      decode line = .raises (.unknownRegister d)) ∧
    (op = "pop".toList → ∀ d, args = [d] → NoRegister d →
      decode line = .raises (.unknownRegister d)) ∧
    (op ∈ ["mov".toList, "add".toList, "sub".toList] → ∀ (r : Reg) (src : Text), args = [r.name, src] →
      (∀ o, ¬ OperandSpelling src o) → decode line = .raises (.invalidOperand src)) ∧
    (op = "push".toList → ∀ src, args = [src] → (∀ o, ¬ OperandSpelling src o) →
      decode line = .raises (.invalidOperand src))) ∧
  (∀ s lines pc line, s.viewer = [] → s.atLine lines pc line → line.text = "jmp eax".toList →
    step s = .next (s.faultedAt (.unknownOpcode "jmp".toList) pc line))

/-- Derived (R73, R80, R103): a line of either format with a register as dest and an operand as src
decodes to its instruction, whatever spelling the operand has. -/
def Obligations.LegalLinesDecode : Prop :=
  ∀ (line src : Text) (d : Reg) (o : Operand), OperandSpelling src o →
    (tokens line = ["mov".toList, d.name, src] → decode line = .instr (.mov d o)) ∧
    (tokens line = ["add".toList, d.name, src] → decode line = .instr (.add d o)) ∧
    (tokens line = ["sub".toList, d.name, src] → decode line = .instr (.sub d o)) ∧
    (tokens line = ["push".toList, src] → decode line = .instr (.push o)) ∧
    (tokens line = ["pop".toList, d.name] → decode line = .instr (.pop d))

/-- R85: the nine lines the rule lists. -/
def Obligations.LinesThatLookValid : Prop :=
  decode "mov eax, 10".toList = .raises (.unknownRegister "eax,".toList) ∧
  decode "mov eax 10 ; set".toList = .raises (.invalidOperands "mov".toList) ∧
  decode "mov eax 0x1F".toList = .instr (.mov .eax (.imm 0x1F)) ∧
  decode "mov eax 1F".toList = .instr (.mov .eax (.imm 0x1F)) ∧
  decode "mov eax 10".toList = .instr (.mov .eax (.imm 16)) ∧
  decode "mov eax EAX".toList = .raises (.invalidOperand "EAX".toList) ∧
  decode "mov eax ad".toList = .instr (.mov .eax (.imm 0xAD)) ∧
  decode "push [10]".toList = .instr (.push (.mem 0x10)) ∧
  decode "pop [10]".toList = .raises (.unknownRegister "[10]".toList)

/-- Derived: lines written out from the spec's encodings (R73, R80) and their instructions; the host's
number form of a line is the model's (log 1). -/
def Obligations.LinesDecodeAsEncoded : Prop :=
  decode "  mov\teax   0x1F  ".toList = .instr (.mov .eax (.imm 0x1F)) ∧
  decode "mov eax [1F]".toList = .instr (.mov .eax (.mem 0x1F)) ∧
  decode "add ebx ad".toList = .instr (.add .ebx (.imm 0xAD)) ∧
  decode "sub esp 4".toList = .instr (.sub .esp (.imm 4)) ∧
  decode "push [ffffffffff]".toList = .instr (.push (.mem 0xFFFFFFFFFF)) ∧
  decode "pop ecx".toList = .instr (.pop .ecx) ∧
  decodeTableWord 56 0x78636520706F70 = some (.pop .ecx)

/-- R88: every term of program text is a legal instruction, spelled by its encoding with every operand
whole; decoding gives no other term, and a line with tokens either decodes or raises. -/
def Obligations.DecodeOfEncodeIsTheInstruction : Prop :=
  (∀ i : Instr, i.textual = true → ∃ line, encode i = some line ∧ decode line = .instr i) ∧
  (∀ line i, decode line = .instr i → i.textual = true) ∧
  (∀ line, tokens line ≠ [] → (∃ i, decode line = .instr i) ∨ ∃ e, decode line = .raises e)

/-! ### Construction and the invariant -/

/-- R35: registers 0, memory MEM_INIT, MEM_SIZE as chosen and never changed, run state Idle. -/
def Obligations.ConstructionLeavesTheStatedState : Prop :=
  ∀ (size : Nat) (init : Nat → U8),
    (∀ r, (State.construct size init).getReg r = 0) ∧
    (∀ a, a < size → (State.construct size init).byteAt a = init a) ∧
    (State.construct size init).memSize = size ∧
    (∀ requests viewer k t, Host.Core.run Sys2Proof.core k
        (((State.construct size init).setRequests requests).setViewer viewer) = .next t →
      t.memSize = size) ∧
    (State.construct size init).run = .idle

/-- Derived, the model's choices of log 2 and log 3: State.reset is one of the constructions, with a
MEM_SIZE in its range and MEM_INIT what an unlisted address reads as. -/
def Obligations.ResetIsAConstruction : Prop :=
  State.reset = State.construct Config.memSize (fun _ => Config.unlistedByte) ∧
  1 ≤ Config.memSize ∧ Config.memSize ≤ 2 ^ 32

/-- Derived: the invariant holds after construction with every MEM_SIZE and MEM_INIT, at reset too. -/
def Obligations.ConstructionMeetsTheInvariant : Prop :=
  State.reset.wf ∧
  ∀ (size : Nat) (init : Nat → U8), 1 ≤ size → size ≤ 2 ^ 32 → (State.construct size init).wf

/-- Derived: every step keeps the invariant. -/
def Obligations.StepKeepsTheInvariant : Prop :=
  ∀ s t : State, s.wf → step s = .next t → t.wf

/-- Derived (R33, R188, R191): from a state of the invariant no step faults or is refused. -/
def Obligations.NoStepStopsTheMachine : Prop :=
  ∀ s : State, s.wf → ∃ t, step s = .next t

/-- Derived (R38, R40): no step changes MEM_SIZE. -/
def Obligations.MemorySizeIsFixed : Prop :=
  ∀ s t : State, step s = .next t → t.memSize = s.memSize

/-! ### The engine -/

/-- Derived (R105, R108): when the line at the position decodes to an instruction, a step is its
meaning at that state; with a viewer's pass before it, at the state without that turn. -/
def Obligations.StepRunsTheDecodedInstruction : Prop :=
  ∀ s lines pc line i, s.atLine lines pc line → decode line.text = .instr i →
    (s.viewer = [] → step s = exec i s) ∧
    (∀ rest, s.viewer = .pass :: rest → step s = exec i (s.setViewer rest))

/-- R102: at the end of L the run is done; before it, the line at the position is fetched. -/
def Obligations.FetchTakesTheLineAtThePosition : Prop :=
  ∀ s lines pc, s.viewer = [] → s.run = .running lines pc →
    (pc = lines.length → step s = .next (s.setRun .done)) ∧
    (∀ line, lines[pc]? = some line → step s = runLine line s)

/-- Derived (R27, R34, R107, R116): in a run the position changes by +1 only, the run ends at the end of
L or with the record of the current line, and no call of the host is begun. -/
def Obligations.PositionOnlyAdvances : Prop :=
  ∀ s t lines pc, s.run = .running lines pc → step s = .next t → t.requests = s.requests ∧
    ((∃ segment offset rest, s.viewer = .read segment offset :: rest ∧ t.run = s.run) ∨
    (pc < lines.length ∧ t.run = .running lines (pc + 1)) ∨
    (pc = lines.length ∧ t.run = .done) ∨
    (∃ line e, lines[pc]? = some line ∧ t.run = .faulted ⟨e, pc, line.lineno, line.text⟩))

/-- R109: an error at decode changes no register and no memory; an error at execute changes no memory,
and no register but esp in `push`. -/
def Obligations.ErrorInAStepKeepsTheState : Prop :=
  ∀ s lines pc line, s.viewer = [] → s.atLine lines pc line →
    (∀ e, decode line.text = .raises e → step s = .next (s.faultedAt e pc line)) ∧
    (∀ i t rec, decode line.text = .instr i → step s = .next t → t.run = .faulted rec →
      t.mem = s.mem ∧
      ((∃ src, i = .push src) → t.regs = s.regs.set .esp (s.getReg .esp - 4)) ∧
      ((∀ src, i ≠ .push src) → t.regs = s.regs))

/-- Derived (R180, R189): kind, code and info of a record, for the seven errors. -/
def Obligations.FaultRecordFollowsTheErrorTable : Prop :=
  ∀ (pc lineno : Nat) (text t : Text) (a : Nat),
    (∀ rec : FaultRecord, rec = ⟨.unknownOpcode t, pc, lineno, text⟩ →
      rec.kind = .unknownOpcode ∧ rec.code = 1 ∧ rec.info = .token t) ∧
    (∀ rec : FaultRecord, rec = ⟨.invalidOperands t, pc, lineno, text⟩ →
      rec.kind = .invalidOperands ∧ rec.code = 2 ∧ rec.info = .token t) ∧
    (∀ rec : FaultRecord, rec = ⟨.invalidOperand t, pc, lineno, text⟩ →
      rec.kind = .invalidOperand ∧ rec.code = 3 ∧ rec.info = .token t) ∧
    (∀ rec : FaultRecord, rec = ⟨.unknownRegister t, pc, lineno, text⟩ →
      rec.kind = .unknownRegister ∧ rec.code = 4 ∧ rec.info = .token t) ∧
    (∀ rec : FaultRecord, rec = ⟨.outOfBounds a, pc, lineno, text⟩ →
      rec.kind = .outOfBounds ∧ rec.code = 5 ∧ rec.info = .address a) ∧
    (∀ rec : FaultRecord, rec = ⟨.divisionByZero, pc, lineno, text⟩ →
      rec.kind = .divisionByZero ∧ rec.code = 6 ∧ rec.info = .nothing) ∧
    (∀ rec : FaultRecord, rec = ⟨.invalidShiftAmount a, pc, lineno, text⟩ →
      rec.kind = .invalidShiftAmount ∧ rec.code = 7 ∧ rec.info = .amount a)

/-- Derived (R100, R111): a run ends after at most as many steps as L has lines, the final fetch, and the
viewer's turns; after one step more its outcome is with the host and the run state is Idle (log 9). -/
def Obligations.EveryRunEnds : Prop :=
  ∀ (s : State) (text : Text), s.run = .running (programLines text) 0 →
    ∃ k t, k ≤ (programLines text).length + 1 + s.viewer.length ∧
      Host.Core.run Sys2Proof.core k s = .next t ∧ t.run.ended ∧
      ∃ n u, n ≤ (programLines text).length + 2 + s.viewer.length ∧
        Host.Core.run Sys2Proof.core n s = .next u ∧ u.run = .idle ∧
        ((t.run = .done ∧ u.result = some .runDone) ∨
          ∃ rec, t.run = .faulted rec ∧ u.result = some (.runFaulted rec))

/-- Derived (R31, R100, R110, R200): when a run has ended, the next operation returns its outcome to the
host, the run state is Idle, and everything else survives. That the return is a step is the model's
(log 9). -/
def Obligations.EndedRunReturnsToIdle : Prop :=
  ∀ s : State, s.viewer = [] →
    (s.run = .done → step s = .next ((s.setRun .idle).answer .runDone)) ∧
    (∀ rec, s.run = .faulted rec → step s = .next ((s.setRun .idle).answer (.runFaulted rec)))

/-- Derived (R113): a blank program has an empty L; its run is Done and changes no register and no memory.
That the call takes two steps to its end and one to return is the model's (log 4, log 9, log 10). -/
def Obligations.BlankProgramIsDone : Prop :=
  (∀ text : Text, (∀ c ∈ text, isSpace c = true) → programLines text = []) ∧
  (∀ (s : State) text rest, s.betweenRuns → s.viewer = [] → s.requests = .executeProgram text :: rest →
    programLines text = [] →
    Host.Core.run Sys2Proof.core 2 s = .next ((s.setRequests rest).setRun .done) ∧
    Host.Core.run Sys2Proof.core 3 s = .next ((s.setRequests rest).answer .runDone))

/-- Derived (R100, R112): a program call begins at position 0 of its own L with the registers and the
memory as they are; after a run that is Done or Faulted too, once its outcome is returned. The waiting
call and the steps are the model's (log 4, log 9, log 10). -/
def Obligations.ProgramCallBeginsAtItsFirstLine : Prop :=
  ∀ (s : State) text rest, s.viewer = [] → s.requests = .executeProgram text :: rest →
    (s.betweenRuns →
      step s = .next ((s.setRequests rest).setRun (.running (programLines text) 0))) ∧
    (s.run = .done → Host.Core.run Sys2Proof.core 2 s =
      .next (((s.setRequests rest).setRun (.running (programLines text) 0)).answer .runDone)) ∧
    (∀ rec, s.run = .faulted rec → Host.Core.run Sys2Proof.core 2 s =
      .next (((s.setRequests rest).setRun (.running (programLines text) 0)).answer (.runFaulted rec)))

/-- Derived (R34, R192, R200, R212): between runs the oldest port call is served whole by its meaning, and
with no call nothing is executed; after a faulted run too, once its outcome is returned. That the state
is Idle from that return on is the model's reading of R31 and R200 (log 9); the waiting call is the
model's (log 4). -/
def Obligations.HostCallsAreServedBetweenRuns : Prop :=
  ∀ s : State, s.viewer = [] →
    (s.betweenRuns →
      (s.requests = [] → step s = .next s) ∧
      (∀ i rest, s.requests = .call i :: rest → step s = exec i (s.setRequests rest))) ∧
    (∀ rec, s.run = .faulted rec →
      (s.requests = [] → ∀ k, Host.Core.run Sys2Proof.core (k + 1) s =
        .next ((s.setRun .idle).answer (.runFaulted rec))) ∧
      (∀ i rest, s.requests = .call i :: rest → Host.Core.run Sys2Proof.core 2 s =
        exec i (((s.setRun .idle).answer (.runFaulted rec)).setRequests rest)))

/-- Derived (R37): the dump lists the eight registers in the order of R20 and changes no state. The
waiting call is the model's (log 4). -/
def Obligations.DumpListsTheRegisters : Prop :=
  ∀ s rest, s.betweenRuns → s.viewer = [] → s.requests = .dump :: rest →
    step s = .next ((s.setRequests rest).answer (.registers [(.eax, s.getReg .eax),
      (.ebx, s.getReg .ebx), (.ecx, s.getReg .ecx), (.edx, s.getReg .edx), (.esp, s.getReg .esp),
      (.ebp, s.getReg .ebp), (.esi, s.getReg .esi), (.edi, s.getReg .edi)]))

/-- Derived (R36): the viewer reads the byte at segment * 16 + offset and changes no state of the CORE. -/
def Obligations.ViewerOnlyReadsAByte : Prop :=
  ∀ s segment offset rest, s.viewer = .read segment offset :: rest →
    (segment * 16 + offset < s.memSize →
      step s = .next ((s.setViewer rest).answerViewer (.u8 (s.byteAt (segment * 16 + offset))))) ∧
    (s.memSize ≤ segment * 16 + offset →
      step s = .next ((s.setViewer rest).answerViewer (.failed (.outOfBounds (segment * 16 + offset)))))

/-- Derived (R59, R115, R221): with the viewer erased, a step of a machine with a viewer is a stutter, at
a viewer's read, or the step of the machine without one. -/
def Obligations.ViewerCannotChangeARun : Prop :=
  ∀ s : State,
    (∀ t, step s = .next t →
      (∃ segment offset rest, s.viewer = .read segment offset :: rest ∧
        t.withoutViewer = s.withoutViewer) ∨
      ∃ u, step s.withoutViewer = .next u ∧ u.withoutViewer = t.withoutViewer) ∧
    (∀ f, step s = .fault f → step s.withoutViewer = .fault f) ∧
    (∀ f, step s = .refused f → step s.withoutViewer = .refused f)

/-- Derived (R24, R56, R58): memory is changed only by a step that runs `push` in a run, or that serves
one of the six write calls between runs. -/
def Obligations.OnlyPushAndWritePortsChangeMemory : Prop :=
  ∀ s t : State, step s = .next t → t.mem ≠ s.mem →
    (∃ lines pc line src, s.atLine lines pc line ∧ decode line.text = .instr (.push src) ∧
      t.requests = s.requests) ∨
    (∃ i rest, s.betweenRuns ∧ s.requests = .call i :: rest ∧ t.requests = rest ∧
      ((∃ a v, i = .portWriteByte a v) ∨ (∃ a v, i = .portWriteWord a v) ∨
        (∃ a v, i = .portWriteDword a v) ∨ (∃ g o v, i = .portWriteByteSeg g o v) ∨
        (∃ g o v, i = .portWriteWordSeg g o v) ∨ (∃ g o v, i = .portWriteDwordSeg g o v)))

/-! ### mov, add, sub -/

/-- Derived (R130): `mov` completes on every readable source, with the source's value. -/
def Obligations.MovWritesTheSourceValue : Prop :=
  ∀ s lines pc line d src, s.atLine lines pc line → readable src s →
    exec (.mov d src) s = .next ((s.setReg d (operandValue src s)).atPosition lines (pc + 1))

/-- Derived (R131, R132): `add` and `sub` complete on every readable source, with the sum and the
difference modulo 2^32. -/
def Obligations.AddAndSubWriteTheResult : Prop :=
  ∀ s lines pc line d src, s.atLine lines pc line → readable src s →
    exec (.add d src) s = .next ((s.setReg d (BitVec.ofNat 32
      (((s.getReg d).toNat + (operandValue src s).toNat) % 2 ^ 32))).atPosition lines (pc + 1)) ∧
    exec (.sub d src) s = .next ((s.setReg d (BitVec.ofNat 32
      (((s.getReg d).toNat + 2 ^ 32 - (operandValue src s).toNat) % 2 ^ 32))).atPosition lines (pc + 1))

/-- Derived (R109, R185): a memory source out of range ends the run with OutOfBounds of its address,
and no register and no memory changes. -/
def Obligations.SourceOutOfRangeEndsTheRun : Prop :=
  ∀ s lines pc line d a, s.atLine lines pc line → s.memSize ≤ a →
    exec (.mov d (.mem a)) s = .next (s.faultedAt (.outOfBounds a) pc line) ∧
    exec (.add d (.mem a)) s = .next (s.faultedAt (.outOfBounds a) pc line) ∧
    exec (.sub d (.mem a)) s = .next (s.faultedAt (.outOfBounds a) pc line)

/-- R133: modular unsigned results, `sub` then `add` of the same value restores, `add r r` shifts left
by 1. -/
def Obligations.AddAndSubAreModular : Prop :=
  ∀ s lines pc line d src, s.atLine lines pc line → readable src s →
    (∃ t, exec (.add d src) s = .next t ∧
      (t.getReg d).toNat = ((s.getReg d).toNat + (operandValue src s).toNat) % 2 ^ 32) ∧
    (∃ t, exec (.sub d src) s = .next t ∧
      ((t.getReg d).toNat : Int) =
        ((s.getReg d).toNat - (operandValue src s).toNat : Int) % 2 ^ 32) ∧
    (src ≠ .reg d → ∀ t u, exec (.sub d src) s = .next t → exec (.add d src) t = .next u →
      u.getReg d = s.getReg d) ∧
    (∃ t, exec (.add d (.reg d)) s = .next t ∧ t.getReg d = s.getReg d <<< 1)

/-- R134: source and destination the same register. -/
def Obligations.SameRegisterIsReadTwice : Prop :=
  ∀ s lines pc line r, s.atLine lines pc line →
    exec (.mov r (.reg r)) s = .next (s.atPosition lines (pc + 1)) ∧
    exec (.add r (.reg r)) s = .next ((s.setReg r (BitVec.ofNat 32
      (2 * (s.getReg r).toNat % 2 ^ 32))).atPosition lines (pc + 1)) ∧
    exec (.sub r (.reg r)) s = .next ((s.setReg r 0).atPosition lines (pc + 1))

/-- Derived (R24, R25, R28): what `mov`, `add` and `sub` leave unchanged, also when they end the run. -/
def Obligations.MovAddSubFrame : Prop :=
  ∀ s t d src i, (i = .mov d src ∨ i = .add d src ∨ i = .sub d src) → exec i s = .next t →
    (∀ r, r ≠ d → t.getReg r = s.getReg r) ∧
    (∀ a, t.byteAt a = s.byteAt a) ∧ t.memSize = s.memSize ∧
    t.requests = s.requests ∧ t.viewer = s.viewer ∧ t.viewerResult = s.viewerResult

/-! ### push and pop -/

/-- Derived (R140): `push` completes when its source and its slot are in range: esp is decremented, then
the source is resolved, then its low byte is stored at the new esp. -/
def Obligations.PushStoresTheLowByte : Prop :=
  ∀ s lines pc line src, s.atLine lines pc line → readable src s → pushAddress s < s.memSize →
    exec (.push src) s = .next (((s.setReg .esp (s.getReg .esp - 4)).setMem
      (s.mem.write (pushAddress s)
        ((operandValue src (s.setReg .esp (s.getReg .esp - 4))).setWidth 8))).atPosition lines (pc + 1))

/-- Derived (R24, R140, R146): what `push` leaves unchanged, also when it ends the run: every register
but esp, every byte but the one at the new esp. -/
def Obligations.PushFrame : Prop :=
  ∀ s t src, s.mem.wf → exec (.push src) s = .next t →
    t.getReg .esp = s.getReg .esp - 4 ∧
    (∀ r, r ≠ .esp → t.getReg r = s.getReg r) ∧
    (∀ a, a ≠ pushAddress s → t.byteAt a = s.byteAt a) ∧ t.memSize = s.memSize ∧
    t.requests = s.requests ∧ t.viewer = s.viewer ∧ t.viewerResult = s.viewerResult

/-- R141: `push esp` stores the low byte of the decremented esp. -/
def Obligations.PushEspStoresTheNewValue : Prop :=
  ∀ s lines pc line, s.mem.wf → s.atLine lines pc line → pushAddress s < s.memSize →
    ∃ t, exec (.push (.reg .esp)) s = .next t ∧
      t.getReg .esp = s.getReg .esp - 4 ∧
      t.byteAt (pushAddress s) = (s.getReg .esp - 4).setWidth 8 ∧
      (s.getReg .esp = 0x100 → t.byteAt 0xFC = 0xFC)

/-- R142: a `push` that raises at execute keeps its decrement, and memory is unchanged. -/
def Obligations.FailedPushKeepsTheDecrement : Prop :=
  ∀ s lines pc line, s.atLine lines pc line →
    (∀ a, s.memSize ≤ a →
      exec (.push (.mem a)) s =
        .next ((s.setReg .esp (s.getReg .esp - 4)).faultedAt (.outOfBounds a) pc line)) ∧
    (∀ src, readable src s → s.memSize ≤ pushAddress s →
      exec (.push src) s =
        .next ((s.setReg .esp (s.getReg .esp - 4)).faultedAt (.outOfBounds (pushAddress s)) pc line))

/-- Derived (R143): `pop` completes when esp is in range; out of range it ends the run and changes no
register and no memory. -/
def Obligations.PopLoadsOneByte : Prop :=
  ∀ s lines pc line d, s.atLine lines pc line →
    ((s.getReg .esp).toNat < s.memSize →
      exec (.pop d) s = .next (((s.setReg d ((s.byteAt (s.getReg .esp).toNat).setWidth 32)).setReg .esp
        ((s.setReg d ((s.byteAt (s.getReg .esp).toNat).setWidth 32)).getReg .esp + 4)).atPosition
          lines (pc + 1))) ∧
    (s.memSize ≤ (s.getReg .esp).toNat →
      exec (.pop d) s = .next (s.faultedAt (.outOfBounds (s.getReg .esp).toNat) pc line))

/-- Derived (R24, R143): what `pop` leaves unchanged: every register but dest and esp, all of memory. -/
def Obligations.PopFrame : Prop :=
  ∀ s t d, exec (.pop d) s = .next t →
    (∀ r, r ≠ d → r ≠ .esp → t.getReg r = s.getReg r) ∧
    (∀ a, t.byteAt a = s.byteAt a) ∧ t.memSize = s.memSize ∧
    t.requests = s.requests ∧ t.viewer = s.viewer ∧ t.viewerResult = s.viewerResult

/-- R144: `pop esp` leaves esp at the loaded byte plus 4. -/
def Obligations.PopEspAddsFourToTheByte : Prop :=
  ∀ s lines pc line, s.atLine lines pc line → (s.getReg .esp).toNat < s.memSize →
    exec (.pop .esp) s = .next ((s.setReg .esp
      ((s.byteAt (s.getReg .esp).toNat).setWidth 32 + 4)).atPosition lines (pc + 1))

/-- R145: push(x); pop(r) restores esp and leaves the low byte of x in r; for r = esp it leaves that
byte plus 4. x is the value the source has after the decrement (R141). -/
def Obligations.PushThenPopRestoresTheStack : Prop :=
  ∀ s lines pc line src r, s.mem.wf → s.atLine lines pc line → pc + 1 < lines.length →
    readable src s → pushAddress s < s.memSize →
    ∃ t u, exec (.push src) s = .next t ∧ exec (.pop r) t = .next u ∧
      u.run = .running lines (pc + 2) ∧
      (r ≠ .esp → u.getReg .esp = s.getReg .esp ∧
        (u.getReg r).toNat =
          (operandValue src (s.setReg .esp (s.getReg .esp - 4))).toNat % 2 ^ 8) ∧
      (r = .esp → (u.getReg .esp).toNat =
        (operandValue src (s.setReg .esp (s.getReg .esp - 4))).toNat % 2 ^ 8 + 4)

/-- R148: esp wraps modulo 2^32 in `push` below 4 and in a successful `pop` near the top (into another
register than esp, R144). -/
def Obligations.StackPointerWraps : Prop :=
  ∀ s lines pc line, s.atLine lines pc line →
    ((s.getReg .esp).toNat < 4 → ∀ src,
      (∀ t, exec (.push src) s = .next t →
        (t.getReg .esp).toNat = (s.getReg .esp).toNat + 2 ^ 32 - 4) ∧
      (readable src s → (s.getReg .esp).toNat + 2 ^ 32 - 4 < s.memSize →
        ∃ t, exec (.push src) s = .next t ∧ t.run = .running lines (pc + 1)) ∧
      (readable src s → s.memSize ≤ (s.getReg .esp).toNat + 2 ^ 32 - 4 →
        exec (.push src) s = .next ((s.setReg .esp (s.getReg .esp - 4)).faultedAt
          (.outOfBounds ((s.getReg .esp).toNat + 2 ^ 32 - 4)) pc line))) ∧
    (2 ^ 32 - 4 ≤ (s.getReg .esp).toNat → (s.getReg .esp).toNat < s.memSize → ∀ d, d ≠ .esp →
      ∃ t, exec (.pop d) s = .next t ∧
        (t.getReg .esp).toNat = (s.getReg .esp).toNat + 4 - 2 ^ 32)

/-- Derived (R140, R214; log 14 on the exact bound): the first `push` after construction finds esp = 0
and raises OutOfBounds(0xFFFFFFFC) unless memory reaches that address. -/
def Obligations.FirstPushAfterConstructionFaults : Prop :=
  ∀ (size : Nat) (init : Nat → U8) lines pc line src,
    lines[pc]? = some line → size ≤ 0xFFFFFFFC →
    readable src ((State.construct size init).atPosition lines pc) →
    exec (.push src) ((State.construct size init).atPosition lines pc) =
      .next ((((State.construct size init).atPosition lines pc).setReg .esp 0xFFFFFFFC).faultedAt
        (.outOfBounds 0xFFFFFFFC) pc line)

/-! ### The register port -/

/-- R150, R151: get and set. -/
def Obligations.GetAndSetReachTheRegister : Prop :=
  ∀ s,
    (∀ r : Reg, exec (.portGet r.name) s = .next (s.answer (.u32 (s.getReg r)))) ∧
    (∀ name, NoRegister name →
      exec (.portGet name) s = .next (s.answer (.failed (.unknownRegister name)))) ∧
    (∀ (r : Reg) (v : Nat), exec (.portSet r.name v) s =
      .next ((s.setReg r (BitVec.ofNat 32 (v % 2 ^ 32))).answer .completed)) ∧
    (∀ name v, NoRegister name →
      exec (.portSet name v) s = .next (s.answer (.failed (.unknownRegister name)))) ∧
    (∀ (r : Reg) size init, exec (.portGet r.name) (State.construct size init) =
      .next ((State.construct size init).answer (.u32 0)))

/-- R153, R154, R155: add, sub and mul modulo 2^32. -/
def Obligations.PortArithmeticIsModular : Prop :=
  ∀ s,
    (∀ (r : Reg) (b : U32),
      exec (.portAdd r.name b) s = .next ((s.setReg r (BitVec.ofNat 32
        (((s.getReg r).toNat + b.toNat) % 2 ^ 32))).answer .completed) ∧
      exec (.portSub r.name b) s = .next ((s.setReg r (BitVec.ofNat 32
        (((s.getReg r).toNat + 2 ^ 32 - b.toNat) % 2 ^ 32))).answer .completed) ∧
      exec (.portMul r.name b) s = .next ((s.setReg r (BitVec.ofNat 32
        (((s.getReg r).toNat * b.toNat) % 2 ^ 32))).answer .completed)) ∧
    (∀ name b, NoRegister name →
      exec (.portAdd name b) s = .next (s.answer (.failed (.unknownRegister name))) ∧
      exec (.portSub name b) s = .next (s.answer (.failed (.unknownRegister name))) ∧
      exec (.portMul name b) s = .next (s.answer (.failed (.unknownRegister name))))

/-- R156: the unsigned quotient rounded down; a zero divisor leaves the register unmodified. -/
def Obligations.PortDivideRoundsDown : Prop :=
  ∀ s,
    (∀ (r : Reg) (b : U32), b ≠ 0 →
      exec (.portDiv r.name b) s = .next ((s.setReg r (BitVec.ofNat 32
        ((s.getReg r).toNat / b.toNat))).answer .completed)) ∧
    (∀ r : Reg, exec (.portDiv r.name 0) s = .next (s.answer (.failed .divisionByZero))) ∧
    (∀ name b, NoRegister name →
      exec (.portDiv name b) s = .next (s.answer (.failed (.unknownRegister name))))

/-- R157, R158, R159: and, or, xor, bit by bit. -/
def Obligations.PortBitwiseOperations : Prop :=
  ∀ s,
    (∀ (r : Reg) (b : U32),
      exec (.portAnd r.name b) s = .next ((s.setReg r (BitVec.ofNat 32
        ((s.getReg r).toNat &&& b.toNat))).answer .completed) ∧
      exec (.portOr r.name b) s = .next ((s.setReg r (BitVec.ofNat 32
        ((s.getReg r).toNat ||| b.toNat))).answer .completed) ∧
      exec (.portXor r.name b) s = .next ((s.setReg r (BitVec.ofNat 32
        ((s.getReg r).toNat ^^^ b.toNat))).answer .completed)) ∧
    (∀ name b, NoRegister name →
      exec (.portAnd name b) s = .next (s.answer (.failed (.unknownRegister name))) ∧
      exec (.portOr name b) s = .next (s.answer (.failed (.unknownRegister name))) ∧
      exec (.portXor name b) s = .next (s.answer (.failed (.unknownRegister name))))

/-- R160, R161, R162, R163, R164: logical shifts, rotates by the source's formulas, the amount 0, and an
amount of 32 or more, which leaves the register unmodified. -/
def Obligations.PortShiftsAndRotates : Prop :=
  ∀ s (n : Nat),
    (∀ r : Reg, n < 32 →
      exec (.portShl r.name n) s = .next ((s.setReg r (BitVec.ofNat 32
        ((s.getReg r).toNat * 2 ^ n % 2 ^ 32))).answer .completed) ∧
      exec (.portShr r.name n) s = .next ((s.setReg r (BitVec.ofNat 32
        ((s.getReg r).toNat / 2 ^ n))).answer .completed) ∧
      exec (.portRol r.name n) s = .next ((s.setReg r (BitVec.ofNat 32
        (((s.getReg r).toNat <<< n ||| (s.getReg r).toNat >>> (32 - n)) % 2 ^ 32))).answer
          .completed) ∧
      exec (.portRor r.name n) s = .next ((s.setReg r (BitVec.ofNat 32
        (((s.getReg r).toNat >>> n ||| (s.getReg r).toNat <<< (32 - n)) % 2 ^ 32))).answer
          .completed)) ∧
    (∀ r : Reg, ∀ i ∈ [Instr.portShl r.name 0, .portShr r.name 0, .portRol r.name 0, .portRor r.name 0],
      exec i s = .next (s.answer .completed)) ∧
    (∀ r : Reg, 32 ≤ n →
      ∀ i ∈ [Instr.portShl r.name n, .portShr r.name n, .portRol r.name n, .portRor r.name n],
        exec i s = .next (s.answer (.failed (.invalidShiftAmount n)))) ∧
    (∀ name, NoRegister name →
      ∀ i ∈ [Instr.portShl name n, .portShr name n, .portRol name n, .portRor name n],
        exec i s = .next (s.answer (.failed (.unknownRegister name))))

/-- R165: the laws of the operations. -/
def Obligations.RegisterOperationLaws : Prop :=
  ∀ (s : State) (r : Reg),
    (∀ n, n < 32 →
      (∃ t u, exec (.portRol r.name n) s = .next t ∧ exec (.portRor r.name n) t = .next u ∧
        u.getReg r = s.getReg r) ∧
      (∃ t u, exec (.portRor r.name n) s = .next t ∧ exec (.portRol r.name n) t = .next u ∧
        u.getReg r = s.getReg r) ∧
      (1 ≤ n → exec (.portRol r.name n) s = exec (.portRor r.name (32 - n)) s) ∧
      exec (.portShl r.name n) s = exec (.portMul r.name (BitVec.ofNat 32 (2 ^ n))) s ∧
      exec (.portShr r.name n) s = exec (.portDiv r.name (BitVec.ofNat 32 (2 ^ n))) s) ∧
    (∀ b, ∃ t u, exec (.portAdd r.name b) s = .next t ∧ exec (.portSub r.name b) t = .next u ∧
      u.getReg r = s.getReg r) ∧
    (∀ b, (s.getReg r).toNat * b.toNat < 2 ^ 32 → b ≠ 0 →
      ∃ t u, exec (.portMul r.name b) s = .next t ∧ exec (.portDiv r.name b) t = .next u ∧
        u.getReg r = s.getReg r)

/-- R23: a name outside the eight, in any register position, raises UnknownRegister and changes no
state; EAX is such a name. -/
def Obligations.UnknownNamesRaiseUnknownRegister : Prop :=
  (∀ name, NoRegister name → ∀ (s : State) (v : Nat) (b : U32),
    (∀ i ∈ [Instr.portGet name, .portSet name v, .portAdd name b, .portSub name b, .portMul name b,
        .portDiv name b, .portAnd name b, .portOr name b, .portXor name b, .portShl name v,
        .portShr name v, .portRol name v, .portRor name v],
      exec i s = .next (s.answer (.failed (.unknownRegister name)))) ∧
    (∀ line src, tokens line ∈ [["mov".toList, name, src], ["add".toList, name, src],
        ["sub".toList, name, src], ["pop".toList, name]] →
      decode line = .raises (.unknownRegister name))) ∧
  NoRegister "EAX".toList

/-- Derived (R24, R166): a register operation changes its register only; no byte of memory, no other
register, not the run state. -/
def Obligations.RegisterPortFrame : Prop :=
  ∀ (s t : State) (name : Text) (v : Nat) (b : U32),
    ∀ i ∈ [Instr.portGet name, .portSet name v, .portAdd name b, .portSub name b, .portMul name b,
        .portDiv name b, .portAnd name b, .portOr name b, .portXor name b, .portShl name v,
        .portShr name v, .portRol name v, .portRor name v],
      exec i s = .next t →
      (∀ r : Reg, r.name ≠ name ∨ i = .portGet name → t.getReg r = s.getReg r) ∧
      (∀ a, t.byteAt a = s.byteAt a) ∧ t.memSize = s.memSize ∧ t.run = s.run ∧
      t.requests = s.requests ∧ t.viewer = s.viewer ∧ t.viewerResult = s.viewerResult

/-- R191: a port call completes or fails as its answer says; a failed call changes nothing but the
answer, and later port calls go as if it had not been. -/
def Obligations.ErrorOutsideARunChangesNothing : Prop :=
  ∀ i s, i.port = true → ∃ t, exec i s = .next t ∧ t.run = s.run ∧
    ∀ e, t.result = some (.failed e) →
      t = s.answer (.failed e) ∧ ∀ j, j.port = true → exec j t = exec j s

/-! ### Memory -/

/-- R13, R14: MemRead and MemWrite of 1, 2 and 4 bytes. -/
def Obligations.MemReadAndMemWrite : Prop :=
  ∀ (s : State) (addr n : Nat), n ∈ [1, 2, 4] →
    (s.memSize ≤ addr + n - 1 → s.memRead addr n = .error (.outOfBounds addr)) ∧
    (addr + n - 1 < s.memSize → s.memRead addr n =
      .ok (∑ i ∈ Finset.range n, (s.byteAt (addr + i)).toNat * 2 ^ (8 * i))) ∧
    (∀ v, v < 2 ^ (8 * n) →
      (s.memSize ≤ addr + n - 1 → s.memWrite addr n v = .error (.outOfBounds addr)) ∧
      (addr + n - 1 < s.memSize → s.mem.wf →
        ∃ t, s.memWrite addr n v = .ok t ∧
          (∀ i, i < n → t.byteAt (addr + i) = BitVec.ofNat 8 (v / 2 ^ (8 * i))) ∧
          (∀ x, x < addr ∨ addr + n ≤ x → t.byteAt x = s.byteAt x) ∧
          t = s.setMem t.mem))

/-- R44, R46, R48: the three reads, in range and out of range. -/
def Obligations.ReadPortsAnswerLittleEndian : Prop :=
  ∀ (s : State) (a : Nat),
    (a < s.memSize → exec (.portReadByte a) s = .next (s.answer (.u8 (s.byteAt a)))) ∧
    (s.memSize ≤ a → exec (.portReadByte a) s = .next (s.answer (.failed (.outOfBounds a)))) ∧
    (a + 1 < s.memSize → exec (.portReadWord a) s = .next (s.answer (.u16 (BitVec.ofNat 16
      ((s.byteAt a).toNat + (s.byteAt (a + 1)).toNat * 2 ^ 8))))) ∧
    (s.memSize ≤ a + 1 → exec (.portReadWord a) s = .next (s.answer (.failed (.outOfBounds a)))) ∧
    (a + 3 < s.memSize → exec (.portReadDword a) s = .next (s.answer (.u32 (BitVec.ofNat 32
      ((s.byteAt a).toNat + (s.byteAt (a + 1)).toNat * 2 ^ 8 + (s.byteAt (a + 2)).toNat * 2 ^ 16 +
        (s.byteAt (a + 3)).toNat * 2 ^ 24))))) ∧
    (s.memSize ≤ a + 3 → exec (.portReadDword a) s = .next (s.answer (.failed (.outOfBounds a))))

/-- R45, R47, R49: the three writes, whole or not at all, their round trips, and their frame. -/
def Obligations.WritePortsStoreLittleEndian : Prop :=
  ∀ (s : State) (a : Nat), s.mem.wf →
    (∀ v : U8,
      (a < s.memSize → ∃ t, exec (.portWriteByte a v) s = .next t ∧ t.byteAt a = v ∧
        (∀ x, x ≠ a → t.byteAt x = s.byteAt x) ∧
        t = (s.setMem t.mem).answer .completed ∧
        exec (.portReadByte a) t = .next (t.answer (.u8 v))) ∧
      (s.memSize ≤ a → exec (.portWriteByte a v) s = .next (s.answer (.failed (.outOfBounds a))))) ∧
    (∀ v : U16,
      (a + 1 < s.memSize → ∃ t, exec (.portWriteWord a v) s = .next t ∧
        t.byteAt a = v.setWidth 8 ∧ t.byteAt (a + 1) = (v >>> 8).setWidth 8 ∧
        (∀ x, x < a ∨ a + 2 ≤ x → t.byteAt x = s.byteAt x) ∧
        t = (s.setMem t.mem).answer .completed ∧
        exec (.portReadWord a) t = .next (t.answer (.u16 v))) ∧
      (s.memSize ≤ a + 1 →
        exec (.portWriteWord a v) s = .next (s.answer (.failed (.outOfBounds a))))) ∧
    (∀ v : U32,
      (a + 3 < s.memSize → ∃ t, exec (.portWriteDword a v) s = .next t ∧
        (∀ i, i < 4 → t.byteAt (a + i) = (v >>> (8 * i)).setWidth 8) ∧
        (∀ x, x < a ∨ a + 4 ≤ x → t.byteAt x = s.byteAt x) ∧
        t = (s.setMem t.mem).answer .completed ∧
        exec (.portReadDword a) t = .next (t.answer (.u32 v))) ∧
      (s.memSize ≤ a + 3 →
        exec (.portWriteDword a v) s = .next (s.answer (.failed (.outOfBounds a)))))

/-- R43: accesses of different widths see the same bytes, the memory operand of an instruction too. -/
def Obligations.MixedWidthsSeeTheSameBytes : Prop :=
  (∀ (s : State) (a : Nat) (v : U32), s.mem.wf → a + 3 < s.memSize →
    ∃ t, exec (.portWriteDword a v) s = .next t ∧
      (∀ i, i < 4 →
        exec (.portReadByte (a + i)) t = .next (t.answer (.u8 ((v >>> (8 * i)).setWidth 8)))) ∧
      exec (.portReadWord a) t = .next (t.answer (.u16 (v.setWidth 16))) ∧
      exec (.portReadWord (a + 2)) t = .next (t.answer (.u16 ((v >>> 16).setWidth 16)))) ∧
  (∀ (s : State) (a : Nat) (b : U8),
    exec (.portReadByte a) s = .next (s.answer (.u8 b)) → resolve (.mem a) s = .ok (b.setWidth 32))

/-- R51, R53: the six segment-relative accessors are the flat ones at segment * 16 + offset, in range
with their effect, out of range with OutOfBounds of the linear address. -/
def Obligations.SegmentPortsAreFlatAtTheLinearAddress : Prop :=
  ∀ (st : State) (g o a : Nat), a = g * 16 + o →
    (a < st.memSize →
      (∃ t, exec (.portReadByteSeg g o) st = .next t ∧ exec (.portReadByte a) st = .next t ∧
        t.result = some (.u8 (st.byteAt a))) ∧
      (∀ v, ∃ t, exec (.portWriteByteSeg g o v) st = .next t ∧
        exec (.portWriteByte a v) st = .next t ∧ t.result = some .completed)) ∧
    (st.memSize ≤ a →
      exec (.portReadByteSeg g o) st = .next (st.answer (.failed (.outOfBounds a))) ∧
      ∀ v, exec (.portWriteByteSeg g o v) st = .next (st.answer (.failed (.outOfBounds a)))) ∧
    (a + 1 < st.memSize →
      (∃ t, exec (.portReadWordSeg g o) st = .next t ∧ exec (.portReadWord a) st = .next t ∧
        t.result = some (.u16 (BitVec.ofNat 16
          ((st.byteAt a).toNat + (st.byteAt (a + 1)).toNat * 2 ^ 8)))) ∧
      (∀ v, ∃ t, exec (.portWriteWordSeg g o v) st = .next t ∧
        exec (.portWriteWord a v) st = .next t ∧ t.result = some .completed)) ∧
    (st.memSize ≤ a + 1 →
      exec (.portReadWordSeg g o) st = .next (st.answer (.failed (.outOfBounds a))) ∧
      ∀ v, exec (.portWriteWordSeg g o v) st = .next (st.answer (.failed (.outOfBounds a)))) ∧
    (a + 3 < st.memSize →
      (∃ t, exec (.portReadDwordSeg g o) st = .next t ∧ exec (.portReadDword a) st = .next t ∧
        t.result = some (.u32 (BitVec.ofNat 32
          ((st.byteAt a).toNat + (st.byteAt (a + 1)).toNat * 2 ^ 8 +
            (st.byteAt (a + 2)).toNat * 2 ^ 16 + (st.byteAt (a + 3)).toNat * 2 ^ 24)))) ∧
      (∀ v, ∃ t, exec (.portWriteDwordSeg g o v) st = .next t ∧
        exec (.portWriteDword a v) st = .next t ∧ t.result = some .completed)) ∧
    (st.memSize ≤ a + 3 →
      exec (.portReadDwordSeg g o) st = .next (st.answer (.failed (.outOfBounds a))) ∧
      ∀ v, exec (.portWriteDwordSeg g o v) st = .next (st.answer (.failed (.outOfBounds a))))
end

