-- ==== Sys2Proof/Laws/State.lean ====
section
/-! SUPPORT. One lemma per field per update of the state, and the register file's laws. -/

namespace Sys2Proof.Machine

/-! ### The register file -/

@[simp] theorem RegFile.get_set_self (f : RegFile) (r : Reg) (v : U32) : (f.set r v).get r = v := by
  cases r <;> rfl

theorem RegFile.get_set_of_ne (f : RegFile) {r q : Reg} (v : U32) (h : q ≠ r) :
    (f.set r v).get q = f.get q := by
  cases r <;> cases q <;> first | rfl | exact absurd rfl h

theorem RegFile.get_set (f : RegFile) (r q : Reg) (v : U32) :
    (f.set r v).get q = if q = r then v else f.get q := by
  by_cases h : q = r
  · simp [h]
  · simp [h, RegFile.get_set_of_ne]

@[simp] theorem RegFile.set_get_self (f : RegFile) (r : Reg) : f.set r (f.get r) = f := by
  cases r <;> rfl

@[simp] theorem RegFile.set_set_self (f : RegFile) (r : Reg) (v w : U32) :
    (f.set r v).set r w = f.set r w := by
  cases r <;> rfl

@[simp] theorem RegFile.zero_get (r : Reg) : RegFile.zero.get r = 0 := by cases r <;> rfl

theorem RegFile.ext_get {f g : RegFile} (h : ∀ r, f.get r = g.get r) : f = g := by
  cases f; cases g
  simp only [RegFile.mk.injEq]
  exact ⟨h .eax, h .ebx, h .ecx, h .edx, h .esp, h .ebp, h .esi, h .edi⟩

/-! ### setReg -/

section
variable (s : State) (r : Reg) (v : U32)

@[simp] theorem State.setReg_regs : (s.setReg r v).regs = s.regs.set r v := rfl
@[simp] theorem State.setReg_mem : (s.setReg r v).mem = s.mem := rfl
@[simp] theorem State.setReg_memSize : (s.setReg r v).memSize = s.memSize := rfl
@[simp] theorem State.setReg_run : (s.setReg r v).run = s.run := rfl
@[simp] theorem State.setReg_requests : (s.setReg r v).requests = s.requests := rfl
@[simp] theorem State.setReg_result : (s.setReg r v).result = s.result := rfl
@[simp] theorem State.setReg_viewer : (s.setReg r v).viewer = s.viewer := rfl
@[simp] theorem State.setReg_viewerResult : (s.setReg r v).viewerResult = s.viewerResult := rfl
@[simp] theorem State.setReg_byteAt (a : Nat) : (s.setReg r v).byteAt a = s.byteAt a := rfl

@[simp] theorem State.getReg_setReg_self : (s.setReg r v).getReg r = v := by
  simp [State.getReg]

theorem State.getReg_setReg (q : Reg) : (s.setReg r v).getReg q = if q = r then v else s.getReg q := by
  simp [State.getReg, RegFile.get_set]

theorem State.getReg_setReg_of_ne {q : Reg} (h : q ≠ r) : (s.setReg r v).getReg q = s.getReg q := by
  simp [State.getReg_setReg, h]

@[simp] theorem State.setReg_setReg_self (w : U32) : (s.setReg r v).setReg r w = s.setReg r w := by
  simp [State.setReg]

@[simp] theorem State.setReg_getReg_self : s.setReg r (s.getReg r) = s := by
  simp [State.setReg, State.getReg]

end

/-! ### One field set: run state, memory, host calls, viewer's turns, answers -/

section
variable (s : State) (o : RunState)

@[simp] theorem State.setRun_regs : (s.setRun o).regs = s.regs := rfl
@[simp] theorem State.setRun_mem : (s.setRun o).mem = s.mem := rfl
@[simp] theorem State.setRun_memSize : (s.setRun o).memSize = s.memSize := rfl
@[simp] theorem State.setRun_run : (s.setRun o).run = o := rfl
@[simp] theorem State.setRun_requests : (s.setRun o).requests = s.requests := rfl
@[simp] theorem State.setRun_result : (s.setRun o).result = s.result := rfl
@[simp] theorem State.setRun_viewer : (s.setRun o).viewer = s.viewer := rfl
@[simp] theorem State.setRun_viewerResult : (s.setRun o).viewerResult = s.viewerResult := rfl
@[simp] theorem State.setRun_getReg (r : Reg) : (s.setRun o).getReg r = s.getReg r := rfl
@[simp] theorem State.setRun_byteAt (a : Nat) : (s.setRun o).byteAt a = s.byteAt a := rfl
@[simp] theorem State.setRun_setRun (o' : RunState) : (s.setRun o).setRun o' = s.setRun o' := rfl

end

section
variable (s : State) (m : Memory)

@[simp] theorem State.setMem_regs : (s.setMem m).regs = s.regs := rfl
@[simp] theorem State.setMem_mem : (s.setMem m).mem = m := rfl
@[simp] theorem State.setMem_memSize : (s.setMem m).memSize = s.memSize := rfl
@[simp] theorem State.setMem_run : (s.setMem m).run = s.run := rfl
@[simp] theorem State.setMem_requests : (s.setMem m).requests = s.requests := rfl
@[simp] theorem State.setMem_result : (s.setMem m).result = s.result := rfl
@[simp] theorem State.setMem_viewer : (s.setMem m).viewer = s.viewer := rfl
@[simp] theorem State.setMem_viewerResult : (s.setMem m).viewerResult = s.viewerResult := rfl
@[simp] theorem State.setMem_getReg (r : Reg) : (s.setMem m).getReg r = s.getReg r := rfl
@[simp] theorem State.setMem_byteAt (a : Nat) : (s.setMem m).byteAt a = m.read a := rfl
@[simp] theorem State.setMem_setMem (m' : Memory) : (s.setMem m).setMem m' = s.setMem m' := rfl

end

section
variable (s : State) (rs : List Request)

@[simp] theorem State.setRequests_regs : (s.setRequests rs).regs = s.regs := rfl
@[simp] theorem State.setRequests_mem : (s.setRequests rs).mem = s.mem := rfl
@[simp] theorem State.setRequests_memSize : (s.setRequests rs).memSize = s.memSize := rfl
@[simp] theorem State.setRequests_run : (s.setRequests rs).run = s.run := rfl
@[simp] theorem State.setRequests_requests : (s.setRequests rs).requests = rs := rfl
@[simp] theorem State.setRequests_result : (s.setRequests rs).result = s.result := rfl
@[simp] theorem State.setRequests_viewer : (s.setRequests rs).viewer = s.viewer := rfl
@[simp] theorem State.setRequests_viewerResult : (s.setRequests rs).viewerResult = s.viewerResult := rfl
@[simp] theorem State.setRequests_getReg (r : Reg) : (s.setRequests rs).getReg r = s.getReg r := rfl
@[simp] theorem State.setRequests_byteAt (a : Nat) : (s.setRequests rs).byteAt a = s.byteAt a := rfl
@[simp] theorem State.setRequests_setRequests (rs' : List Request) : (s.setRequests rs).setRequests rs' = s.setRequests rs' := rfl

end

section
variable (s : State) (vs : List ViewerTurn)

@[simp] theorem State.setViewer_regs : (s.setViewer vs).regs = s.regs := rfl
@[simp] theorem State.setViewer_mem : (s.setViewer vs).mem = s.mem := rfl
@[simp] theorem State.setViewer_memSize : (s.setViewer vs).memSize = s.memSize := rfl
@[simp] theorem State.setViewer_run : (s.setViewer vs).run = s.run := rfl
@[simp] theorem State.setViewer_requests : (s.setViewer vs).requests = s.requests := rfl
@[simp] theorem State.setViewer_result : (s.setViewer vs).result = s.result := rfl
@[simp] theorem State.setViewer_viewer : (s.setViewer vs).viewer = vs := rfl
@[simp] theorem State.setViewer_viewerResult : (s.setViewer vs).viewerResult = s.viewerResult := rfl
@[simp] theorem State.setViewer_getReg (r : Reg) : (s.setViewer vs).getReg r = s.getReg r := rfl
@[simp] theorem State.setViewer_byteAt (a : Nat) : (s.setViewer vs).byteAt a = s.byteAt a := rfl
@[simp] theorem State.setViewer_setViewer (vs' : List ViewerTurn) : (s.setViewer vs).setViewer vs' = s.setViewer vs' := rfl

end

section
variable (s : State) (p : PortResult)

@[simp] theorem State.answer_regs : (s.answer p).regs = s.regs := rfl
@[simp] theorem State.answer_mem : (s.answer p).mem = s.mem := rfl
@[simp] theorem State.answer_memSize : (s.answer p).memSize = s.memSize := rfl
@[simp] theorem State.answer_run : (s.answer p).run = s.run := rfl
@[simp] theorem State.answer_requests : (s.answer p).requests = s.requests := rfl
@[simp] theorem State.answer_result : (s.answer p).result = some p := rfl
@[simp] theorem State.answer_viewer : (s.answer p).viewer = s.viewer := rfl
@[simp] theorem State.answer_viewerResult : (s.answer p).viewerResult = s.viewerResult := rfl
@[simp] theorem State.answer_getReg (r : Reg) : (s.answer p).getReg r = s.getReg r := rfl
@[simp] theorem State.answer_byteAt (a : Nat) : (s.answer p).byteAt a = s.byteAt a := rfl
@[simp] theorem State.answer_answer (p' : PortResult) : (s.answer p).answer p' = s.answer p' := rfl

end

section
variable (s : State) (p : PortResult)

@[simp] theorem State.answerViewer_regs : (s.answerViewer p).regs = s.regs := rfl
@[simp] theorem State.answerViewer_mem : (s.answerViewer p).mem = s.mem := rfl
@[simp] theorem State.answerViewer_memSize : (s.answerViewer p).memSize = s.memSize := rfl
@[simp] theorem State.answerViewer_run : (s.answerViewer p).run = s.run := rfl
@[simp] theorem State.answerViewer_requests : (s.answerViewer p).requests = s.requests := rfl
@[simp] theorem State.answerViewer_result : (s.answerViewer p).result = s.result := rfl
@[simp] theorem State.answerViewer_viewer : (s.answerViewer p).viewer = s.viewer := rfl
@[simp] theorem State.answerViewer_viewerResult : (s.answerViewer p).viewerResult = some p := rfl
@[simp] theorem State.answerViewer_getReg (r : Reg) : (s.answerViewer p).getReg r = s.getReg r := rfl
@[simp] theorem State.answerViewer_byteAt (a : Nat) : (s.answerViewer p).byteAt a = s.byteAt a := rfl
@[simp] theorem State.answerViewer_answerViewer (p' : PortResult) : (s.answerViewer p).answerViewer p' = s.answerViewer p' := rfl

end

/-! ### The end of a run by an error -/

section
variable (s : State) (rec : FaultRecord)

@[simp] theorem State.endFaulted_regs : (s.endFaulted rec).regs = s.regs := rfl
@[simp] theorem State.endFaulted_mem : (s.endFaulted rec).mem = s.mem := rfl
@[simp] theorem State.endFaulted_memSize : (s.endFaulted rec).memSize = s.memSize := rfl
@[simp] theorem State.endFaulted_run : (s.endFaulted rec).run = .faulted rec := rfl
@[simp] theorem State.endFaulted_requests : (s.endFaulted rec).requests = s.requests := rfl
@[simp] theorem State.endFaulted_result : (s.endFaulted rec).result = s.result := rfl
@[simp] theorem State.endFaulted_viewer : (s.endFaulted rec).viewer = s.viewer := rfl
@[simp] theorem State.endFaulted_viewerResult : (s.endFaulted rec).viewerResult = s.viewerResult := rfl
@[simp] theorem State.endFaulted_getReg (r : Reg) : (s.endFaulted rec).getReg r = s.getReg r := rfl
@[simp] theorem State.endFaulted_byteAt (a : Nat) : (s.endFaulted rec).byteAt a = s.byteAt a := rfl

end

/-! ### The return of a run's outcome -/

section
variable (s : State) (p : PortResult)

@[simp] theorem returnRun_regs : (returnRun p s).regs = s.regs := rfl
@[simp] theorem returnRun_mem : (returnRun p s).mem = s.mem := rfl
@[simp] theorem returnRun_memSize : (returnRun p s).memSize = s.memSize := rfl
@[simp] theorem returnRun_run : (returnRun p s).run = .idle := rfl
@[simp] theorem returnRun_requests : (returnRun p s).requests = s.requests := rfl
@[simp] theorem returnRun_result : (returnRun p s).result = some p := rfl
@[simp] theorem returnRun_viewer : (returnRun p s).viewer = s.viewer := rfl
@[simp] theorem returnRun_viewerResult : (returnRun p s).viewerResult = s.viewerResult := rfl

end

/-! ### The state at construction -/

@[simp] theorem State.reset_getReg (r : Reg) : State.reset.getReg r = 0 := by
  simp [State.getReg, State.reset]

@[simp] theorem State.reset_run : State.reset.run = .idle := rfl
@[simp] theorem State.construct_regs (size : Nat) (init : Nat → U8) :
    (State.construct size init).regs = RegFile.zero := rfl
@[simp] theorem State.construct_memSize (size : Nat) (init : Nat → U8) :
    (State.construct size init).memSize = size := rfl
@[simp] theorem State.construct_run (size : Nat) (init : Nat → U8) :
    (State.construct size init).run = .idle := rfl

end Sys2Proof.Machine
end

