-- ==== Sys2Proof/Laws/Memory.lean ====
section
/-! SUPPORT. Memory: a read after a write, and every memory operation keeps the canonical form. -/

namespace Sys2Proof.Machine

@[simp] theorem Memory.read_nil (a : Nat) : Memory.read [] a = Config.unlistedByte := rfl

theorem Memory.read_cons (b : Nat) (w : U8) (m : Memory) (a : Nat) :
    Memory.read ((b, w) :: m) a = if b = a then w else m.read a := rfl

/-- An address below every listed one reads as unlisted. -/
theorem Memory.read_eq_unlisted {m : Memory} {a : Nat} (h : ∀ c ∈ m, a ≠ c.1) :
    m.read a = Config.unlistedByte := by
  induction m with
  | nil => rfl
  | cons c rest ih =>
    obtain ⟨b, w⟩ := c
    have hb : b ≠ a := fun e => h (b, w) (by simp) e.symm
    rw [Memory.read_cons, if_neg hb]
    exact ih fun c hc => h c (by simp [hc])

theorem Memory.wf_nil : Memory.wf [] := by simp [Memory.wf]

theorem Memory.wf_cons {b : Nat} {w : U8} {m : Memory} :
    Memory.wf ((b, w) :: m) ↔ (∀ c ∈ m, b < c.1) ∧ w ≠ Config.unlistedByte ∧ m.wf := by
  simp only [Memory.wf, List.pairwise_cons, List.forall_mem_cons]
  tauto

theorem Memory.read_put {m : Memory} {a : Nat} (v : U8) (h : ∀ c ∈ m, a < c.1) (x : Nat) :
    (Memory.put a v m).read x = if x = a then v else m.read x := by
  unfold Memory.put
  split <;> rename_i hv
  · by_cases hx : x = a
    · subst hx
      rw [if_pos rfl, Memory.read_eq_unlisted (fun c hc => (h c hc).ne), hv]
    · rw [if_neg hx]
  · rw [Memory.read_cons]
    simp only [eq_comm]

theorem Memory.put_wf {m : Memory} {a : Nat} (v : U8) (hm : m.wf) (h : ∀ c ∈ m, a < c.1) :
    (Memory.put a v m).wf := by
  unfold Memory.put
  split <;> rename_i hv
  · exact hm
  · exact Memory.wf_cons.2 ⟨h, hv, hm⟩

theorem Memory.mem_put {m : Memory} {a : Nat} {v : U8} {c : Host.Cell} (h : c ∈ Memory.put a v m) :
    c.1 = a ∨ c ∈ m := by
  unfold Memory.put at h
  split at h
  · exact .inr h
  · rcases List.mem_cons.1 h with rfl | h
    · exact .inl rfl
    · exact .inr h

/-- The addresses a write lists: the written one and those listed before. -/
theorem Memory.mem_write {m : Memory} {a : Nat} {v : U8} {c : Host.Cell} (h : c ∈ m.write a v) :
    c.1 = a ∨ c ∈ m := by
  induction m with
  | nil => exact Memory.mem_put h
  | cons d rest ih =>
    obtain ⟨b, w⟩ := d
    simp only [Memory.write] at h
    split at h
    · exact Memory.mem_put h
    · split at h
      · exact (Memory.mem_put h).imp_right (List.mem_cons_of_mem _)
      · rcases List.mem_cons.1 h with rfl | h
        · exact .inr (by simp)
        · exact (ih h).imp_right (List.mem_cons_of_mem _)

theorem Memory.write_wf {m : Memory} (a : Nat) (v : U8) (hm : m.wf) : (m.write a v).wf := by
  induction m with
  | nil => exact Memory.put_wf v Memory.wf_nil (by simp)
  | cons d rest ih =>
    obtain ⟨b, w⟩ := d
    obtain ⟨hb, hw, hrest⟩ := Memory.wf_cons.1 hm
    simp only [Memory.write]
    split <;> rename_i h1
    · refine Memory.put_wf v hm fun c hc => ?_
      rcases List.mem_cons.1 hc with rfl | hc
      · exact h1
      · exact h1.trans (hb c hc)
    · split <;> rename_i h2
      · exact Memory.put_wf v hrest fun c hc => h2 ▸ hb c hc
      · refine Memory.wf_cons.2 ⟨fun c hc => ?_, hw, ih hrest⟩
        rcases Memory.mem_write hc with h | h
        · omega
        · exact hb c h

/-- A read after a write gives the value written at its address and the old value elsewhere. -/
theorem Memory.read_write {m : Memory} (hm : m.wf) (a : Nat) (v : U8) (x : Nat) :
    (m.write a v).read x = if x = a then v else m.read x := by
  induction m with
  | nil => exact Memory.read_put v (by simp) x
  | cons d rest ih =>
    obtain ⟨b, w⟩ := d
    obtain ⟨hb, hw, hrest⟩ := Memory.wf_cons.1 hm
    simp only [Memory.write]
    split <;> rename_i h1
    · refine Memory.read_put v (fun c hc => ?_) x
      rcases List.mem_cons.1 hc with rfl | hc
      · exact h1
      · exact h1.trans (hb c hc)
    · split <;> rename_i h2
      · rw [Memory.read_put v (fun c hc => h2 ▸ hb c hc) x, Memory.read_cons]
        split <;> rename_i hx
        · rfl
        · rw [if_neg (by omega)]
      · rw [Memory.read_cons, Memory.read_cons, ih hrest]
        split <;> rename_i hx
        · rw [if_neg (by omega)]
        · rfl

/-- Writing what an unlisted address reads as to an address that is not listed changes nothing. -/
theorem Memory.write_unlisted_nil (a : Nat) : Memory.write [] a Config.unlistedByte = [] := by
  simp [Memory.write, Memory.put]

/-! ### Several bytes -/

theorem Memory.writeBytes_wf {m : Memory} (hm : m.wf) (a n v : Nat) : (m.writeBytes a n v).wf := by
  induction n generalizing m a v with
  | zero => exact hm
  | succ n ih => exact ih (Memory.write_wf a (trunc8 v) hm) (a + 1) (v / 256)

theorem Memory.mem_writeBytes {m : Memory} {a n v : Nat} {c : Host.Cell}
    (h : c ∈ m.writeBytes a n v) : (a ≤ c.1 ∧ c.1 < a + n) ∨ c ∈ m := by
  induction n generalizing m a v with
  | zero => exact .inr h
  | succ n ih =>
    rcases ih h with h | h
    · exact .inl (by omega)
    · exact (Memory.mem_write h).imp_left (by omega)

/-- Outside the written bytes a memory reads as before; byte i of them is byte i of the value. -/
theorem Memory.read_writeBytes {m : Memory} (hm : m.wf) (a n v x : Nat) :
    (m.writeBytes a n v).read x =
      if a ≤ x ∧ x < a + n then trunc8 (v / 256 ^ (x - a)) else m.read x := by
  induction n generalizing m a v with
  | zero => rw [if_neg (by omega)]; rfl
  | succ n ih =>
    rw [Memory.writeBytes, ih (Memory.write_wf a _ hm), Memory.read_write hm]
    rcases lt_trichotomy x a with h | rfl | h
    · rw [if_neg (by omega), if_neg (by omega), if_neg (by omega)]
    · rw [if_neg (by omega), if_pos rfl, if_pos (by omega)]
      simp
    · by_cases hx : x < a + 1 + n
      · rw [if_pos (by omega), if_pos (by omega), Nat.div_div_eq_div_mul, ← pow_succ']
        congr 3
        omega
      · rw [if_neg (by omega), if_neg (by omega), if_neg (by omega)]

theorem Memory.readBytes_lt (m : Memory) (a n : Nat) : m.readBytes a n < 256 ^ n := by
  induction n generalizing a with
  | zero => simp [Memory.readBytes]
  | succ n ih =>
    have h1 := (m.read a).isLt
    have h2 := ih (a + 1)
    rw [Memory.readBytes, pow_succ]
    omega

/-- The bytes read are determined byte by byte. -/
theorem Memory.readBytes_congr {m k : Memory} {a n : Nat}
    (h : ∀ x, a ≤ x → x < a + n → m.read x = k.read x) : m.readBytes a n = k.readBytes a n := by
  induction n generalizing a with
  | zero => rfl
  | succ n ih =>
    rw [Memory.readBytes, Memory.readBytes, h a (by omega) (by omega),
      ih fun x h1 h2 => h x (by omega) (by omega)]

/-- Reading back what was written (R45, R47, R49). -/
theorem Memory.readBytes_writeBytes {m : Memory} (hm : m.wf) (a n v : Nat) :
    (m.writeBytes a n v).readBytes a n = v % 256 ^ n := by
  induction n generalizing m a v with
  | zero => simp [Memory.readBytes, Nat.mod_one]
  | succ n ih =>
    rw [Memory.readBytes, Memory.read_writeBytes hm, if_pos (by omega)]
    rw [Memory.writeBytes, ih (Memory.write_wf a _ hm)]
    have hlow : (trunc8 (v / 256 ^ (a - a))).toNat = v % 256 := by simp
    rw [hlow, pow_succ' 256 n, Nat.mod_mul]

/-! ### Construction -/

theorem Memory.ofInit_wf (init : Nat → U8) (n : Nat) : (Memory.ofInit init n).wf := by
  induction n with
  | zero => exact Memory.wf_nil
  | succ n ih => exact Memory.write_wf n (init n) ih

theorem Memory.mem_ofInit {init : Nat → U8} {n : Nat} {c : Host.Cell}
    (h : c ∈ Memory.ofInit init n) : c.1 < n := by
  induction n with
  | zero => simp [Memory.ofInit] at h
  | succ n ih =>
    rcases Memory.mem_write h with h | h
    · omega
    · exact (ih h).trans (by omega)

end Sys2Proof.Machine
end

