-- ==== Sys2Proof/Laws/Text.lean ====
section
/-! SUPPORT. Names, tokens and lines: the small lemmas of Decode.lean's definitions. -/

namespace Sys2Proof

/-! ### Names -/

@[simp] theorem Reg.ofName?_name (r : Reg) : Reg.ofName? r.name = some r := by cases r <;> decide

theorem Reg.name_of_ofName? {t : Text} {r : Reg} (h : Reg.ofName? t = some r) : t = r.name := by
  have := List.find?_some h
  exact (beq_iff_eq.1 this).symm

theorem Reg.mem_all (r : Reg) : r ∈ Reg.all := by cases r <;> decide

theorem Reg.ofName?_eq_none {t : Text} : Reg.ofName? t = none ↔ ∀ r : Reg, t ≠ r.name := by
  rw [Reg.ofName?, List.find?_eq_none]
  constructor
  · intro h r e
    exact h r (Reg.mem_all r) (by simp [e])
  · intro h r _ e
    exact h r (beq_iff_eq.1 e).symm

theorem Reg.name_injective {r q : Reg} (h : r.name = q.name) : r = q := by
  have := Reg.ofName?_name r
  rw [h, Reg.ofName?_name] at this
  exact (Option.some.inj this).symm

@[simp] theorem Opcode.ofToken?_name (o : Opcode) : Opcode.ofToken? o.name = some o := by
  cases o <;> decide

theorem Opcode.name_of_ofToken? {t : Text} {o : Opcode} (h : Opcode.ofToken? t = some o) :
    t = o.name := by
  have := List.find?_some h
  exact (beq_iff_eq.1 this).symm

theorem Opcode.mem_all (o : Opcode) : o ∈ Opcode.all := by cases o <;> decide

theorem Opcode.ofToken?_eq_none {t : Text} :
    Opcode.ofToken? t = none ↔ ∀ o : Opcode, t ≠ o.name := by
  rw [Opcode.ofToken?, List.find?_eq_none]
  constructor
  · intro h o e
    exact h o (Opcode.mem_all o) (by simp [e])
  · intro h o _ e
    exact h o (beq_iff_eq.1 e).symm

theorem Reg.name_ne_nil (r : Reg) : r.name ≠ [] := by cases r <;> decide

theorem Reg.name_noSpace (r : Reg) : ∀ c ∈ r.name, isSpace c = false := by
  cases r <;> simp [Reg.name, isSpace]

theorem Opcode.name_ne_nil (o : Opcode) : o.name ≠ [] := by cases o <;> decide

theorem Opcode.name_noSpace (o : Opcode) : ∀ c ∈ o.name, isSpace c = false := by
  cases o <;> simp [Opcode.name, isSpace]

/-! ### Tokens -/

/-- Characters that are not whitespace join the current token. -/
theorem tokensFrom_noSpace {t : Text} (ht : ∀ c ∈ t, isSpace c = false) (acc rest : Text) :
    tokensFrom acc (t ++ rest) = tokensFrom (t.reverse ++ acc) rest := by
  induction t generalizing acc with
  | nil => rfl
  | cons c cs ih =>
    have hc : isSpace c = false := ht c (by simp)
    have ih' := ih (fun d hd => ht d (by simp [hd])) (c :: acc)
    cases acc <;> simp [tokensFrom, hc, ih']

/-- A whitespace character ends the current token, if there is one. -/
theorem tokensFrom_space {c : Char} (hc : isSpace c = true) (acc rest : Text) :
    tokensFrom acc (c :: rest) =
      (if acc = [] then [] else [acc.reverse]) ++ tokensFrom [] rest := by
  cases acc <;> simp [tokensFrom, hc]

theorem tokensFrom_end (acc : Text) :
    tokensFrom acc [] = if acc = [] then [] else [acc.reverse] := by
  cases acc <;> simp [tokensFrom]

/-- Tokens split at a whitespace character, whatever is around it. -/
theorem tokensFrom_append_space {c : Char} (hc : isSpace c = true) (acc a b : Text) :
    tokensFrom acc (a ++ c :: b) = tokensFrom acc a ++ tokensFrom [] b := by
  induction a generalizing acc with
  | nil => rw [List.nil_append, tokensFrom_space hc, tokensFrom_end]
  | cons d ds ih =>
    by_cases hd : isSpace d = true
    · rw [List.cons_append, tokensFrom_space hd, tokensFrom_space hd, ih, List.append_assoc]
    · have hd' : ∀ e ∈ [d], isSpace e = false := by simpa using hd
      have h1 := tokensFrom_noSpace hd' acc (ds ++ c :: b)
      have h2 := tokensFrom_noSpace hd' acc ds
      simp only [List.singleton_append, List.reverse_singleton] at h1 h2
      rw [List.cons_append, h1, h2, ih]

/-- A token that a character of its own begins is in the list. -/
theorem tokensFrom_ne_nil {acc t : Text} (h : acc ≠ [] ∨ ∃ c ∈ t, isSpace c = false) :
    tokensFrom acc t ≠ [] := by
  induction t generalizing acc with
  | nil =>
    have : acc ≠ [] := by simpa using h
    simp [tokensFrom_end, this]
  | cons d ds ih =>
    by_cases hd : isSpace d = true
    · rw [tokensFrom_space hd]
      by_cases ha : acc = []
      · have : ∃ c ∈ ds, isSpace c = false := by
          rcases h with h | ⟨c, hc, hs⟩
          · exact absurd ha h
          · rcases List.mem_cons.1 hc with rfl | hc
            · simp [hd] at hs
            · exact ⟨c, hc, hs⟩
        simp [ha, ih (.inr this)]
      · simp [ha]
    · have hd' : ∀ e ∈ [d], isSpace e = false := by simpa using hd
      have h1 := tokensFrom_noSpace hd' acc ds
      simp only [List.singleton_append, List.reverse_singleton] at h1
      rw [h1]
      exact ih (.inl (by simp))

/-! ### Stripping and lines -/

theorem mem_of_mem_dropWhile {p : Char → Bool} {c : Char} {t : Text} (h : c ∈ t.dropWhile p) : c ∈ t :=
  (List.dropWhile_sublist p).subset h

theorem mem_of_mem_strip {c : Char} {t : Text} (h : c ∈ strip t) : c ∈ t := by
  rw [strip, List.mem_reverse] at h
  exact mem_of_mem_dropWhile (List.mem_reverse.1 (mem_of_mem_dropWhile h))

theorem head?_dropWhile_not {p : Char → Bool} {t : Text} {c : Char}
    (h : (t.dropWhile p).head? = some c) : p c = false := by
  induction t with
  | nil => simp at h
  | cons d ds ih =>
    rw [List.dropWhile_cons] at h
    split at h
    · exact ih h
    · simp only [List.head?_cons, Option.some.injEq] at h
      subst h
      exact Bool.eq_false_iff.2 ‹_›

theorem getLast?_dropWhile {p : Char → Bool} {t : Text} (h : t.dropWhile p ≠ []) :
    (t.dropWhile p).getLast? = t.getLast? := by
  induction t with
  | nil => simp at h
  | cons d ds ih =>
    rw [List.dropWhile_cons] at h ⊢
    split <;> rename_i hp
    · rw [if_pos hp] at h
      rw [ih h]
      cases ds with
      | nil => simp at h
      | cons e es => simp [List.getLast?_cons]
    · rfl

/-- A stripped text is empty, or has no whitespace at its ends. -/
theorem strip_stripped {t : Text} (h : strip t ≠ []) : Text.stripped (strip t) = true := by
  have hne : (t.dropWhile isSpace).reverse.dropWhile isSpace ≠ [] := by
    intro e
    exact h (by rw [strip, e]; rfl)
  have hlast : ∀ d, (strip t).getLast? = some d → isSpace d = false := by
    intro d hd
    rw [strip, List.getLast?_reverse] at hd
    exact head?_dropWhile_not hd
  have hhead : ∀ c, (strip t).head? = some c → isSpace c = false := by
    intro c hc
    rw [strip, List.head?_reverse, getLast?_dropWhile hne, List.getLast?_reverse] at hc
    exact head?_dropWhile_not hc
  unfold Text.stripped
  cases hh : (strip t).head? with
  | none => exact absurd (List.head?_eq_none_iff.1 hh) h
  | some c =>
    cases hl : (strip t).getLast? with
    | none => exact absurd (List.getLast?_eq_none_iff.1 hl) h
    | some d => simp [hhead c hh, hlast d hl]

/-- A stripped text has a token. -/
theorem tokens_ne_nil_of_stripped {t : Text} (h : Text.stripped t = true) : tokens t ≠ [] := by
  cases t with
  | nil => simp [Text.stripped] at h
  | cons c cs =>
    refine tokensFrom_ne_nil (.inr ⟨c, by simp, ?_⟩)
    unfold Text.stripped at h
    split at h <;> simp_all

theorem splitLinesFrom_noNewline {acc t p : Text} (hacc : '\n' ∉ acc)
    (h : p ∈ splitLinesFrom acc t) : '\n' ∉ p := by
  induction t generalizing acc with
  | nil =>
    simp only [splitLinesFrom, List.mem_singleton] at h
    simpa [h] using hacc
  | cons c cs ih =>
    simp only [splitLinesFrom] at h
    split at h <;> rename_i hc
    · rcases List.mem_cons.1 h with rfl | h
      · simpa using hacc
      · exact ih (by simp) h
    · refine ih ?_ h
      have hc' : c ≠ '\n' := by simpa using hc
      simp [hacc, hc'.symm]

/-- What numbering gives: well-formed lines, numbered from `n`, the numbers rising. -/
theorem numberLines_wf {n : Nat} {ts : List Text} (hn : 1 ≤ n) (h : ∀ t ∈ ts, '\n' ∉ t) :
    linesWellFormed (numberLines n ts) ∧ ∀ l ∈ numberLines n ts, n ≤ l.lineno := by
  induction ts generalizing n with
  | nil => simp [numberLines, linesWellFormed]
  | cons t ts ih =>
    obtain ⟨⟨ih1, ih2⟩, ih3⟩ := ih (n := n + 1) (by omega) fun u hu => h u (by simp [hu])
    simp only [numberLines]
    split <;> rename_i hs
    · exact ⟨⟨ih1, ih2⟩, fun l hl => (Nat.le_succ n).trans (ih3 l hl)⟩
    · have hnl : '\n' ∉ strip t := fun hm => h t (by simp) (mem_of_mem_strip hm)
      refine ⟨⟨?_, ?_⟩, ?_⟩
      · intro l hl
        rcases List.mem_cons.1 hl with rfl | hl
        · simp [SourceLine.wellFormed, strip_stripped hs, hnl, hn]
        · exact ih1 l hl
      · refine List.pairwise_cons.2 ⟨fun l hl => ?_, ih2⟩
        exact Nat.lt_of_succ_le (ih3 l hl)
      · intro l hl
        rcases List.mem_cons.1 hl with rfl | hl
        · exact le_rfl
        · exact (Nat.le_succ n).trans (ih3 l hl)

/-- The line list of every program text is well-formed. -/
theorem programLines_wf (text : Text) : linesWellFormed (programLines text) :=
  (numberLines_wf le_rfl fun _ ht => splitLinesFrom_noNewline (by simp) ht).1

/-- A well-formed line has a token. -/
theorem tokens_ne_nil_of_wellFormed {l : SourceLine} (h : l.wellFormed = true) : tokens l.text ≠ [] := by
  simp only [SourceLine.wellFormed, Bool.and_eq_true] at h
  exact tokens_ne_nil_of_stripped h.1.1

/-! ### Decode -/

theorem decode_of_tokens {line op : Text} {args : List Text} {o : Opcode} (h : tokens line = op :: args)
    (ho : Opcode.ofToken? op = some o) : decode line = decodeOperands op o args := by
  simp [decode, h, ho]

theorem decode_unknownOpcode {line op : Text} {args : List Text} (h : tokens line = op :: args)
    (ho : Opcode.ofToken? op = none) : decode line = .raises (.unknownOpcode op) := by
  simp [decode, h, ho]

theorem decodeOp2_ne_noTokens (make : Reg → Operand → Instr) (d s : Text) :
    decodeOp2 make d s ≠ .noTokens := by
  unfold decodeOp2
  split
  · simp
  · split <;> simp

theorem decodeOperands_ne_noTokens (op : Text) (o : Opcode) (args : List Text) :
    decodeOperands op o args ≠ .noTokens := by
  unfold decodeOperands
  split <;> first | exact decodeOp2_ne_noTokens _ _ _ | skip
  · unfold decodeSrc1; split <;> simp
  · unfold decodeDest1; split <;> simp
  all_goals simp

/-- Only a line without tokens has no decoding. -/
theorem decode_ne_noTokens {line : Text} (h : tokens line ≠ []) : decode line ≠ .noTokens := by
  unfold decode
  split
  · contradiction
  · split
    · simp
    · exact decodeOperands_ne_noTokens _ _ _

end Sys2Proof
end

