-- ==== Sys2Proof/Laws/Ops.lean ====
section
/-! SUPPORT. One lemma per shared operation that says everything it can do. -/

namespace Sys2Proof.Machine

/-! ### The end of a line -/

theorem completeLine_running {s : State} {lines : List SourceLine} {pc : Nat}
    (hr : s.run = .running lines pc) (hp : pc < lines.length) :
    completeLine s = .next (s.setRun (.running lines (pc + 1))) := by
  simp [completeLine, hr, hp]

theorem completeLine_next {s t : State} (h : completeLine s = .next t) :
    ∃ lines pc, s.run = .running lines pc ∧ pc < lines.length ∧
      t = s.setRun (.running lines (pc + 1)) := by
  unfold completeLine at h
  split at h <;> try contradiction
  split at h <;> try contradiction
  exact ⟨_, _, ‹_›, ‹_›, (Host.Outcome.next.inj h).symm⟩

theorem raiseInRun_running {e : CoreError} {s : State} {lines : List SourceLine} {pc : Nat}
    {line : SourceLine} (hr : s.run = .running lines pc) (hl : lines[pc]? = some line) :
    raiseInRun e s = .next (s.endFaulted ⟨e, pc, line.lineno, line.text⟩) := by
  simp [raiseInRun, hr, hl]

theorem raiseInRun_next {e : CoreError} {s t : State} (h : raiseInRun e s = .next t) :
    ∃ lines pc line, s.run = .running lines pc ∧ lines[pc]? = some line ∧
      t = s.endFaulted ⟨e, pc, line.lineno, line.text⟩ := by
  unfold raiseInRun at h
  split at h <;> try contradiction
  split at h <;> try contradiction
  exact ⟨_, _, _, ‹_›, ‹_›, (Host.Outcome.next.inj h).symm⟩

/-! ### Memory accesses -/

theorem State.memRead_inRange {s : State} {a n : Nat} (h : a + n ≤ s.memSize) :
    s.memRead a n = .ok (s.mem.readBytes a n) := if_pos h

theorem State.memRead_outOfRange {s : State} {a n : Nat} (h : s.memSize < a + n) :
    s.memRead a n = .error (.outOfBounds a) := if_neg (by omega)

theorem State.memWrite_inRange {s : State} {a n v : Nat} (h : a + n ≤ s.memSize) :
    s.memWrite a n v = .ok (s.setMem (s.mem.writeBytes a n v)) := if_pos h

theorem State.memWrite_outOfRange {s : State} {a n v : Nat} (h : s.memSize < a + n) :
    s.memWrite a n v = .error (.outOfBounds a) := if_neg (by omega)

@[simp] theorem Memory.readBytes_one (m : Memory) (a : Nat) : m.readBytes a 1 = (m.read a).toNat := by
  simp [Memory.readBytes]

@[simp] theorem Memory.writeBytes_one (m : Memory) (a v : Nat) :
    m.writeBytes a 1 v = m.write a (trunc8 v) := rfl

/-! ### Operands -/

theorem resolve_mem_inRange {s : State} {a : Nat} (h : a < s.memSize) :
    resolve (.mem a) s = .ok ((s.byteAt a).setWidth 32) := by
  have hv : trunc32 (s.mem.read a).toNat = (s.byteAt a).setWidth 32 := by
    apply BitVec.eq_of_toNat_eq
    simp [State.byteAt]
  simp [resolve, State.memRead_inRange (show a + 1 ≤ s.memSize from h), hv]

theorem resolve_mem_outOfRange {s : State} {a : Nat} (h : s.memSize ≤ a) :
    resolve (.mem a) s = .error (.outOfBounds a) := by
  simp [resolve, State.memRead_outOfRange (show s.memSize < a + 1 by omega)]

/-- The one error of resolution (R106). -/
theorem resolve_error {src : Operand} {s : State} {e : CoreError} (h : resolve src s = .error e) :
    ∃ a, src = .mem a ∧ s.memSize ≤ a ∧ e = .outOfBounds a := by
  cases src with
  | imm n => simp [resolve] at h
  | reg r => simp [resolve] at h
  | mem a =>
    by_cases ha : a < s.memSize
    · simp [resolve_mem_inRange ha] at h
    · rw [resolve_mem_outOfRange (by omega)] at h
      exact ⟨a, rfl, by omega, (Except.error.inj h).symm⟩

/-! ### The meanings of program text -/

/-- All that a two-operand instruction can do. -/
theorem twoOperand_cases (f : U32 → U32 → U32) (d : Reg) (src : Operand) (s : State) :
    (∃ b, resolve src s = .ok b ∧
      twoOperand f d src s = completeLine (s.setReg d (f (s.getReg d) b))) ∨
    (∃ e, resolve src s = .error e ∧ twoOperand f d src s = raiseInRun e s) := by
  unfold twoOperand
  cases h : resolve src s with
  | ok b => exact .inl ⟨b, rfl, rfl⟩
  | error e => exact .inr ⟨e, rfl, rfl⟩

/-- All that `push` can do. -/
theorem execPush_cases (src : Operand) (s : State) :
    (∃ v, resolve src (pushSlot s) = .ok v ∧
      ((pushSlot s).getReg .esp).toNat < s.memSize ∧
      execPush src s = completeLine ((pushSlot s).setMem
        (s.mem.write ((pushSlot s).getReg .esp).toNat (trunc8 v.toNat)))) ∨
    (∃ e, execPush src s = raiseInRun e (pushSlot s) ∧
      (resolve src (pushSlot s) = .error e ∨
        ((∃ v, resolve src (pushSlot s) = .ok v) ∧
          s.memSize ≤ ((pushSlot s).getReg .esp).toNat ∧
          e = .outOfBounds ((pushSlot s).getReg .esp).toNat))) := by
  have hsize : (pushSlot s).memSize = s.memSize := rfl
  have hmem : (pushSlot s).mem = s.mem := rfl
  unfold execPush
  cases h : resolve src (pushSlot s) with
  | error e => exact .inr ⟨e, rfl, .inl rfl⟩
  | ok v =>
    have hbyte : trunc8 (v.toNat % 2 ^ 8) = trunc8 v.toNat := by
      apply BitVec.eq_of_toNat_eq
      simp
    by_cases hr : ((pushSlot s).getReg .esp).toNat < s.memSize
    · refine .inl ⟨v, rfl, hr, ?_⟩
      simp only [State.memWrite_inRange (show _ + 1 ≤ (pushSlot s).memSize from hr),
        Memory.writeBytes_one, hbyte, hmem]
    · refine .inr ⟨_, ?_, .inr ⟨⟨v, rfl⟩, by omega, rfl⟩⟩
      have hw : (pushSlot s).memSize < ((pushSlot s).getReg .esp).toNat + 1 := by omega
      simp only [State.memWrite_outOfRange hw]

/-- All that `pop` can do. -/
theorem execPop_cases (d : Reg) (s : State) :
    ((s.getReg .esp).toNat < s.memSize ∧
      execPop d s = completeLine
        (popSlot (s.setReg d ((s.byteAt (s.getReg .esp).toNat).setWidth 32)))) ∨
    (s.memSize ≤ (s.getReg .esp).toNat ∧
      execPop d s = raiseInRun (.outOfBounds (s.getReg .esp).toNat) s) := by
  unfold execPop
  by_cases hr : (s.getReg .esp).toNat < s.memSize
  · refine .inl ⟨hr, ?_⟩
    have hv : trunc32 (s.mem.read (s.getReg .esp).toNat).toNat =
        (s.byteAt (s.getReg .esp).toNat).setWidth 32 := by
      apply BitVec.eq_of_toNat_eq
      simp [State.byteAt]
    simp only [State.memRead_inRange (show _ + 1 ≤ s.memSize from hr), Memory.readBytes_one, hv]
  · refine .inr ⟨by omega, ?_⟩
    rw [State.memRead, if_neg (by omega)]

/-! ### The ports -/

theorem registerOp_known (r : Reg) (f : U32 → Except CoreError U32) (s : State) :
    registerOp r.name f s =
      match f (s.getReg r) with
      | .error e => s.answer (.failed e)
      | .ok v => (s.setReg r v).answer .completed := by
  cases hf : f (s.getReg r) <;> simp [registerOp, hf]

theorem registerOp_unknown {name : Text} (h : ∀ r : Reg, name ≠ r.name)
    (f : U32 → Except CoreError U32) (s : State) :
    registerOp name f s = s.answer (.failed (.unknownRegister name)) := by
  simp [registerOp, Reg.ofName?_eq_none.2 h]

/-- All that a register operation can do: an error changes the answer only, a result one register. -/
theorem registerOp_cases (name : Text) (f : U32 → Except CoreError U32) (s : State) :
    (∃ e, registerOp name f s = s.answer (.failed e)) ∨
    (∃ r v, name = r.name ∧ f (s.getReg r) = .ok v ∧
      registerOp name f s = (s.setReg r v).answer .completed) := by
  by_cases h : ∃ r : Reg, name = r.name
  · obtain ⟨r, rfl⟩ := h
    rw [registerOp_known]
    cases hf : f (s.getReg r) with
    | error e => exact .inl ⟨e, rfl⟩
    | ok v => exact .inr ⟨r, v, rfl, hf, rfl⟩
  · exact .inl ⟨_, registerOp_unknown (fun r e => h ⟨r, e⟩) f s⟩

/-- All that a write port can do. -/
theorem writePort_cases (a n v : Nat) (s : State) :
    (a + n ≤ s.memSize ∧ writePort a n v s =
      (s.setMem (s.mem.writeBytes a n v)).answer .completed) ∨
    (s.memSize < a + n ∧ writePort a n v s = s.answer (.failed (.outOfBounds a))) := by
  by_cases h : a + n ≤ s.memSize
  · exact .inl ⟨h, by simp [writePort, State.memWrite_inRange h]⟩
  · exact .inr ⟨by omega, by simp [writePort, State.memWrite_outOfRange (Nat.lt_of_not_le h)]⟩

/-- All that a read port answers. -/
theorem readAnswer_cases (s : State) (a n : Nat) (f : Nat → PortResult) :
    (a + n ≤ s.memSize ∧ readAnswer s a n f = f (s.mem.readBytes a n)) ∨
    (s.memSize < a + n ∧ readAnswer s a n f = .failed (.outOfBounds a)) := by
  by_cases h : a + n ≤ s.memSize
  · exact .inl ⟨h, by simp [readAnswer, State.memRead_inRange h]⟩
  · exact .inr ⟨by omega, by simp [readAnswer, State.memRead_outOfRange (Nat.lt_of_not_le h)]⟩

/-! ### One step -/

theorem stepCore_running {s : State} {lines : List SourceLine} {pc : Nat}
    (h : s.run = .running lines pc) : stepCore s = stepRun lines pc s := by
  simp [stepCore, h]

theorem stepCore_done {s : State} (h : s.run = .done) : stepCore s = .next (returnRun .runDone s) := by
  simp [stepCore, h]

theorem stepCore_faulted {s : State} {rec : FaultRecord} (h : s.run = .faulted rec) :
    stepCore s = .next (returnRun (.runFaulted rec) s) := by
  simp [stepCore, h]

theorem stepCore_idle {s : State} (h : s.run = .idle) : stepCore s = serveHost s := by
  simp [stepCore, h]

/-- All that the CORE's next operation can be: a step of a run, the return of its outcome, or a call. -/
theorem stepCore_cases (s : State) :
    (∃ lines pc, s.run = .running lines pc ∧ stepCore s = stepRun lines pc s) ∨
    (∃ outcome, (s.run = .done ∧ outcome = .runDone ∨
        ∃ rec, s.run = .faulted rec ∧ outcome = .runFaulted rec) ∧
      stepCore s = .next (returnRun outcome s)) ∨
    (s.run = .idle ∧ stepCore s = serveHost s) := by
  cases h : s.run with
  | running lines pc => exact .inl ⟨lines, pc, rfl, stepCore_running h⟩
  | done => exact .inr (.inl ⟨_, .inl ⟨rfl, rfl⟩, stepCore_done h⟩)
  | faulted rec => exact .inr (.inl ⟨_, .inr ⟨rec, rfl, rfl⟩, stepCore_faulted h⟩)
  | idle => exact .inr (.inr ⟨rfl, stepCore_idle h⟩)

theorem step_noViewer {s : State} (h : s.viewer = []) : step s = stepCore s := by
  simp [step, stepEngine, h]

theorem step_pass {s : State} {rest : List ViewerTurn} (h : s.viewer = .pass :: rest) :
    step s = stepCore (s.setViewer rest) := by
  simp [step, stepEngine, h]

theorem step_viewerRead {s : State} {g o : Nat} {rest : List ViewerTurn}
    (h : s.viewer = .read g o :: rest) :
    step s = .next (viewerRead g o (s.setViewer rest)) := by
  simp [step, stepEngine, h]

/-- All that a step can be: the viewer's read, or the CORE's next operation. -/
theorem step_cases (s : State) :
    (∃ g o rest, s.viewer = .read g o :: rest ∧
      step s = .next (viewerRead g o (s.setViewer rest))) ∨
    (∃ rest, (s.viewer = rest ∨ s.viewer = .pass :: rest) ∧
      step s = stepCore (s.setViewer rest)) := by
  cases h : s.viewer with
  | nil => exact .inr ⟨[], .inl rfl, by rw [step_noViewer h, ← h]; rfl⟩
  | cons turn rest =>
    cases turn with
    | pass => exact .inr ⟨rest, .inr rfl, step_pass h⟩
    | read g o => exact .inl ⟨g, o, rest, rfl, step_viewerRead h⟩

/-- All that a step of a run can be (R108). -/
theorem stepRun_cases (lines : List SourceLine) (pc : Nat) (s : State) :
    (∃ line i, lines[pc]? = some line ∧ decode line.text = .instr i ∧ stepRun lines pc s = exec i s) ∨
    (∃ line e, lines[pc]? = some line ∧ decode line.text = .raises e ∧
      stepRun lines pc s = raiseInRun e s) ∨
    (∃ line, lines[pc]? = some line ∧ decode line.text = .noTokens ∧
      stepRun lines pc s = .refused .lineWithoutTokens) ∨
    (pc = lines.length ∧ stepRun lines pc s = .next (endRun s)) ∨
    (lines.length < pc ∧ stepRun lines pc s = .fault .noCurrentLine) := by
  unfold stepRun
  cases h : lines[pc]? with
  | some line =>
    unfold runLine
    cases hd : decode line.text with
    | instr i => exact .inl ⟨line, i, rfl, hd, by simp only [hd]⟩
    | raises e => exact .inr (.inl ⟨line, e, rfl, hd, by simp only [hd]⟩)
    | noTokens => exact .inr (.inr (.inl ⟨line, rfl, hd, by simp only [hd]⟩))
  | none =>
    have hle : lines.length ≤ pc := List.getElem?_eq_none_iff.1 h
    by_cases he : pc = lines.length
    · exact .inr (.inr (.inr (.inl ⟨he, if_pos he⟩)))
    · exact .inr (.inr (.inr (.inr ⟨by omega, if_neg he⟩)))

end Sys2Proof.Machine
end

