-- ==== Sys2Proof/Laws/Exec.lean ====
section
/-! SUPPORT. What any instruction, any step of a run and several steps can do, said once. -/

namespace Sys2Proof.Machine

/-- A line decodes to an instruction of program text only (R88). -/
theorem textual_of_decode {line : Text} {i : Instr} (h : decode line = .instr i) :
    i.textual = true := by
  have ops : ∀ op o args, decodeOperands op o args = .instr i → i.textual = true := by
    intro op o args h
    unfold decodeOperands at h
    split at h
    all_goals first
      | (unfold decodeOp2 at h; split at h; · simp at h
         · split at h <;> simp at h; subst h; rfl)
      | (unfold decodeSrc1 at h; split at h <;> simp at h; subst h; rfl)
      | (unfold decodeDest1 at h; split at h <;> simp at h; subst h; rfl)
      | simp at h
  unfold decode at h
  split at h
  · simp at h
  · split at h
    · simp at h
    · exact ops _ _ _ h

/-- The state in which a program-text instruction has done its work and its line is not yet complete. -/
structure TextDone (i : Instr) (s s' : State) : Prop where
  memSize : s'.memSize = s.memSize
  run : s'.run = s.run
  requests : s'.requests = s.requests
  viewer : s'.viewer = s.viewer
  viewerResult : s'.viewerResult = s.viewerResult
  canonical : s.mem.wf → s'.mem.wf
  inside : (∀ c ∈ s.mem, c.1 < s.memSize) → ∀ c ∈ s'.mem, c.1 < s.memSize
  mem : (∀ src, i ≠ .push src) → s'.mem = s.mem

/-- The state in which a program-text instruction raises an error. -/
structure TextRaised (i : Instr) (s s' : State) : Prop where
  memSize : s'.memSize = s.memSize
  run : s'.run = s.run
  requests : s'.requests = s.requests
  viewer : s'.viewer = s.viewer
  viewerResult : s'.viewerResult = s.viewerResult
  mem : s'.mem = s.mem
  push : (∃ src, i = .push src) → s'.regs = s.regs.set .esp (s.getReg .esp - 4)
  other : (∀ src, i ≠ .push src) → s'.regs = s.regs

theorem twoOperand_summary {i : Instr} {s : State} {f : U32 → U32 → U32} {d : Reg} {src : Operand}
    (hi : ∀ src, i ≠ .push src) (he : exec i s = twoOperand f d src s) :
    (∃ s', TextDone i s s' ∧ exec i s = completeLine s') ∨
    (∃ s' e, TextRaised i s s' ∧ exec i s = raiseInRun e s') := by
  rw [he]
  rcases twoOperand_cases f d src s with ⟨b, _, h⟩ | ⟨e, _, h⟩
  · exact .inl ⟨s.setReg d (f (s.getReg d) b),
      ⟨rfl, rfl, rfl, rfl, rfl, id, fun h => h, fun _ => rfl⟩, h⟩
  · exact .inr ⟨_, e, ⟨rfl, rfl, rfl, rfl, rfl, rfl, fun ⟨src, e⟩ => absurd e (hi src), fun _ => rfl⟩, h⟩

/-- All that an instruction of program text can do: complete its line, or raise an error in the run. -/
theorem exec_textual_cases {i : Instr} (s : State) (h : i.textual = true) :
    (∃ s', TextDone i s s' ∧ exec i s = completeLine s') ∨
    (∃ s' e, TextRaised i s s' ∧ exec i s = raiseInRun e s') := by
  cases i <;> simp [Instr.textual] at h
  case mov d src => exact twoOperand_summary (f := fun _ b => b) (by simp) rfl
  case add d src => exact twoOperand_summary (f := aluAdd) (by simp) rfl
  case sub d src => exact twoOperand_summary (f := aluSub) (by simp) rfl
  case push src =>
    rcases execPush_cases src s with ⟨v, _, hlt, h⟩ | ⟨e, h, _⟩
    · refine .inl ⟨(pushSlot s).setMem
        (s.mem.write ((pushSlot s).getReg .esp).toNat (trunc8 v.toNat)),
        ⟨rfl, rfl, rfl, rfl, rfl, fun hm => Memory.write_wf _ _ hm, fun hc c hm => ?_,
          fun hh => absurd rfl (hh src)⟩, h⟩
      rcases Memory.mem_write hm with h | h
      · exact h ▸ hlt
      · exact hc c h
    · exact .inr ⟨pushSlot s, e, ⟨rfl, rfl, rfl, rfl, rfl, rfl, fun _ => rfl,
        fun hh => absurd rfl (hh src)⟩, h⟩
  case pop d =>
    rcases execPop_cases d s with ⟨_, h⟩ | ⟨_, h⟩
    · exact .inl ⟨popSlot (s.setReg d ((s.byteAt (s.getReg .esp).toNat).setWidth 32)),
        ⟨rfl, rfl, rfl, rfl, rfl, id, fun h => h, fun _ => rfl⟩, h⟩
    · exact .inr ⟨_, _, ⟨rfl, rfl, rfl, rfl, rfl, rfl, fun ⟨src, e⟩ => by simp at e, fun _ => rfl⟩, h⟩

/-- The six calls that write memory (R56). -/
def callWritesMemory (i : Instr) : Prop :=
  (∃ a v, i = .portWriteByte a v) ∨ (∃ a v, i = .portWriteWord a v) ∨
    (∃ a v, i = .portWriteDword a v) ∨ (∃ g o v, i = .portWriteByteSeg g o v) ∨
    (∃ g o v, i = .portWriteWordSeg g o v) ∨ (∃ g o v, i = .portWriteDwordSeg g o v)

/-- The state after a port call. -/
structure PortDone (i : Instr) (s t : State) : Prop where
  memSize : t.memSize = s.memSize
  run : t.run = s.run
  requests : t.requests = s.requests
  viewer : t.viewer = s.viewer
  viewerResult : t.viewerResult = s.viewerResult
  canonical : s.mem.wf → t.mem.wf
  inside : (∀ c ∈ s.mem, c.1 < s.memSize) → ∀ c ∈ t.mem, c.1 < s.memSize
  failed : ∀ e, t.result = some (.failed e) → t = s.answer (.failed e)
  mem : t.mem ≠ s.mem → callWritesMemory i

theorem answer_portDone (i : Instr) (s : State) (p : PortResult) : PortDone i s (s.answer p) :=
  ⟨rfl, rfl, rfl, rfl, rfl, id, fun h => h, fun e h => by simp at h; rw [h], fun h => absurd rfl h⟩

theorem registerOp_portDone (i : Instr) (name : Text) (f : U32 → Except CoreError U32) (s : State) :
    PortDone i s (registerOp name f s) := by
  rcases registerOp_cases name f s with ⟨e, h⟩ | ⟨r, v, rfl, _, h⟩ <;> rw [h]
  · exact answer_portDone i s _
  · exact ⟨rfl, rfl, rfl, rfl, rfl, id, fun h => h, fun e h => by simp at h, fun h => absurd rfl h⟩

theorem writePort_portDone {i : Instr} (hi : callWritesMemory i) (a n v : Nat) (s : State) :
    PortDone i s (writePort a n v s) := by
  rcases writePort_cases a n v s with ⟨hlt, h⟩ | ⟨_, h⟩ <;> rw [h]
  · refine ⟨rfl, rfl, rfl, rfl, rfl, fun hm => Memory.writeBytes_wf hm _ _ _, fun hc c hm => ?_,
      fun e h => by simp at h, fun _ => hi⟩
    rcases Memory.mem_writeBytes hm with h | h
    · omega
    · exact hc c h
  · exact answer_portDone i s _

/-- All that a port call can do: it answers, and it is a next state. -/
theorem exec_port_cases {i : Instr} (s : State) (h : i.port = true) :
    ∃ t, exec i s = .next t ∧ PortDone i s t := by
  cases i <;> simp [Instr.port, Instr.textual] at h
  case portGet name =>
    simp only [exec, execPortGet]
    split <;> exact ⟨_, rfl, answer_portDone _ _ _⟩
  all_goals first
    | exact ⟨_, rfl, registerOp_portDone _ _ _ _⟩
    | exact ⟨_, rfl, answer_portDone _ _ _⟩
    | exact ⟨_, rfl, writePort_portDone (by simp [callWritesMemory]) _ _ _ _⟩

/-- All that the next state of a step of a run can be. -/
theorem stepRun_next {s t : State} {lines : List SourceLine} {pc : Nat}
    (hr : s.run = .running lines pc) (h : stepRun lines pc s = .next t) :
    (pc < lines.length ∧ t.run = .running lines (pc + 1) ∧ t.viewer = s.viewer ∧
      t.requests = s.requests ∧ t.memSize = s.memSize ∧ (s.mem.wf → t.mem.wf) ∧
      ((∀ c ∈ s.mem, c.1 < s.memSize) → ∀ c ∈ t.mem, c.1 < s.memSize) ∧
      (t.mem ≠ s.mem → ∃ line src, lines[pc]? = some line ∧ decode line.text = .instr (.push src))) ∨
    (((pc = lines.length ∧ t.run = .done) ∨
        ∃ line e, lines[pc]? = some line ∧ t.run = .faulted ⟨e, pc, line.lineno, line.text⟩) ∧
      t.viewer = s.viewer ∧ t.requests = s.requests ∧ t.memSize = s.memSize ∧ t.mem = s.mem) := by
  rcases stepRun_cases lines pc s with
    ⟨line, i, hl, hd, he⟩ | ⟨line, e, hl, hd, he⟩ | ⟨_, _, _, he⟩ | ⟨hp, he⟩ | ⟨_, he⟩ <;> rw [he] at h
  · rcases exec_textual_cases s (textual_of_decode hd) with ⟨s', hs, he⟩ | ⟨s', e, hs, he⟩ <;> rw [he] at h
    · obtain ⟨l', p', h1, h2, rfl⟩ := completeLine_next h
      rw [hs.run, hr] at h1
      cases h1
      refine .inl ⟨h2, rfl, hs.viewer, hs.requests, hs.memSize, hs.canonical, hs.inside, fun hne => ?_⟩
      by_cases hh : ∃ src, i = .push src
      · obtain ⟨src, rfl⟩ := hh
        exact ⟨line, src, hl, hd⟩
      · exact absurd (hs.mem fun src e => hh ⟨src, e⟩) hne
    · obtain ⟨l', p', ln, h1, h2, rfl⟩ := raiseInRun_next h
      rw [hs.run, hr] at h1
      cases h1
      exact .inr ⟨.inr ⟨ln, e, h2, rfl⟩, hs.viewer, hs.requests, hs.memSize, hs.mem⟩
  · obtain ⟨l', p', ln, h1, h2, rfl⟩ := raiseInRun_next h
    rw [hr] at h1
    cases h1
    exact .inr ⟨.inr ⟨ln, e, h2, rfl⟩, rfl, rfl, rfl, rfl⟩
  · cases h
  · cases h
    exact .inr ⟨.inl ⟨hp, rfl⟩, rfl, rfl, rfl, rfl⟩
  · cases h

/-! ### Several steps -/

theorem core_run_succ {s t : State} (k : Nat) (h : step s = .next t) :
    Host.Core.run Sys2Proof.core (k + 1) s = Host.Core.run Sys2Proof.core k t := by
  have hc : Sys2Proof.core.step s = .next t := h
  simp only [Host.Core.run, hc]

theorem core_run_one (s : State) : Host.Core.run Sys2Proof.core 1 s = step s := by
  have hc : Sys2Proof.core.step s = step s := rfl
  simp only [Host.Core.run, hc]
  cases step s <;> rfl

theorem core_run_add (k n : Nat) {s t : State} (h : Host.Core.run Sys2Proof.core k s = .next t) :
    Host.Core.run Sys2Proof.core (k + n) s = Host.Core.run Sys2Proof.core n t := by
  induction k generalizing s with
  | zero => cases h; rw [Nat.zero_add]
  | succ k ih =>
    have hc : Sys2Proof.core.step s = step s := rfl
    cases hs : step s with
    | next u =>
      rw [core_run_succ _ hs] at h
      rw [show k + 1 + n = (k + n) + 1 by omega, core_run_succ _ hs]
      exact ih h
    | fault f => simp only [Host.Core.run, hc, hs] at h; cases h
    | refused f => simp only [Host.Core.run, hc, hs] at h; cases h

end Sys2Proof.Machine
end

