-- ==== Sys2Proof/Laws/PerInstr.lean ====
section
/-! SUPPORT. Statements about every instruction as syntax, one lemma per constructor. -/

namespace Sys2Proof.Laws

/-- An instruction has a line of text just when it is no port call (R87). -/
def TextOrPort.Statement (i : Instr) : Prop := (encode i).isSome = !i.port

theorem TextOrPort.mov (d : Reg) (src : Operand) : TextOrPort.Statement (.mov d src) := rfl
theorem TextOrPort.add (d : Reg) (src : Operand) : TextOrPort.Statement (.add d src) := rfl
theorem TextOrPort.sub (d : Reg) (src : Operand) : TextOrPort.Statement (.sub d src) := rfl
theorem TextOrPort.push (src : Operand) : TextOrPort.Statement (.push src) := rfl
theorem TextOrPort.pop (d : Reg) : TextOrPort.Statement (.pop d) := rfl
theorem TextOrPort.portGet (name : Text) : TextOrPort.Statement (.portGet name) := rfl
theorem TextOrPort.portSet (name : Text) (v : Nat) : TextOrPort.Statement (.portSet name v) := rfl
theorem TextOrPort.portAdd (name : Text) (b : U32) : TextOrPort.Statement (.portAdd name b) := rfl
theorem TextOrPort.portSub (name : Text) (b : U32) : TextOrPort.Statement (.portSub name b) := rfl
theorem TextOrPort.portMul (name : Text) (b : U32) : TextOrPort.Statement (.portMul name b) := rfl
theorem TextOrPort.portDiv (name : Text) (b : U32) : TextOrPort.Statement (.portDiv name b) := rfl
theorem TextOrPort.portAnd (name : Text) (b : U32) : TextOrPort.Statement (.portAnd name b) := rfl
theorem TextOrPort.portOr (name : Text) (b : U32) : TextOrPort.Statement (.portOr name b) := rfl
theorem TextOrPort.portXor (name : Text) (b : U32) : TextOrPort.Statement (.portXor name b) := rfl
theorem TextOrPort.portShl (name : Text) (n : Nat) : TextOrPort.Statement (.portShl name n) := rfl
theorem TextOrPort.portShr (name : Text) (n : Nat) : TextOrPort.Statement (.portShr name n) := rfl
theorem TextOrPort.portRol (name : Text) (n : Nat) : TextOrPort.Statement (.portRol name n) := rfl
theorem TextOrPort.portRor (name : Text) (n : Nat) : TextOrPort.Statement (.portRor name n) := rfl
theorem TextOrPort.portReadByte (a : Nat) : TextOrPort.Statement (.portReadByte a) := rfl
theorem TextOrPort.portWriteByte (a : Nat) (v : U8) : TextOrPort.Statement (.portWriteByte a v) := rfl
theorem TextOrPort.portReadWord (a : Nat) : TextOrPort.Statement (.portReadWord a) := rfl
theorem TextOrPort.portWriteWord (a : Nat) (v : U16) : TextOrPort.Statement (.portWriteWord a v) := rfl
theorem TextOrPort.portReadDword (a : Nat) : TextOrPort.Statement (.portReadDword a) := rfl
theorem TextOrPort.portWriteDword (a : Nat) (v : U32) : TextOrPort.Statement (.portWriteDword a v) := rfl
theorem TextOrPort.portReadByteSeg (g o : Nat) : TextOrPort.Statement (.portReadByteSeg g o) := rfl
theorem TextOrPort.portWriteByteSeg (g o : Nat) (v : U8) :
    TextOrPort.Statement (.portWriteByteSeg g o v) := rfl
theorem TextOrPort.portReadWordSeg (g o : Nat) : TextOrPort.Statement (.portReadWordSeg g o) := rfl
theorem TextOrPort.portWriteWordSeg (g o : Nat) (v : U16) :
    TextOrPort.Statement (.portWriteWordSeg g o v) := rfl
theorem TextOrPort.portReadDwordSeg (g o : Nat) : TextOrPort.Statement (.portReadDwordSeg g o) := rfl
theorem TextOrPort.portWriteDwordSeg (g o : Nat) (v : U32) :
    TextOrPort.Statement (.portWriteDwordSeg g o v) := rfl

end Sys2Proof.Laws
end

