-- ==== Sys2Proof/Machine/Flags.lean ====
section
/-! DEFINITION. Flags: none. The CORE has no flags register and no condition code; no instruction and no
port operation sets or reads a status bit, and an overflow is recorded nowhere (spec/10_state.md R28,
43_alu_ops.md R166). So there is no flag computation to define. -/
end

