-- ==== Sys2Proof/Tests/Slice0.lean ====
section
/-! SUPPORT. The model's own tests. Expected values come from spec/95_test_vectors.md (the vector's id
stands in the docstring) or from the rule named there. The second half holds, for each statement of
Obligations.lean that has hypotheses, a concrete state and operands that meet them (named witness). -/

namespace Sys2Proof.Tests

open Sys2Proof Sys2Proof.Machine

/-! ### Helpers -/

/-- The next state of an outcome, if it has one. -/
def next? : Host.Outcome State Fault Refusal → Option State
  | .next t => some t
  | .fault _ => none
  | .refused _ => none

/-- A view of the next state. -/
def see {α : Type} (f : State → α) (o : Host.Outcome State Fault Refusal) : Option α := (next? o).map f

theorem exists_next {o : Host.Outcome State Fault Refusal} (h : (next? o).isSome = true) :
    ∃ t, o = .next t := by
  cases o with
  | next t => exact ⟨t, rfl⟩
  | fault f => simp [next?] at h
  | refused f => simp [next?] at h

/-- A machine with MEM_SIZE = 0x400, as the vectors have it. -/
def small : State := { State.reset with memSize := 0x400 }

/-- A run at the first line of a text. -/
def runOf (s : State) (text : String) : State := s.setRun (.running (programLines text.toList) 0)

/-- A run at `mov eax eax`, for meanings that do not look at the line. -/
def inRun (s : State) : State := runOf s "mov eax eax"

/-- A run on `small` with one register set and one byte stored. -/
def set1 (r : Reg) (v : U32) (a : Nat) (b : U8) : State :=
  inRun ((small.setReg r v).setMem (Memory.write [] a b))

/-! ### WellFormed: an ill-formed term for each check, refused, beside one that passes -/

theorem test_request_textual_call_refused : Request.wellFormed (.call (.mov .eax (.imm 1))) = false := by
  decide
theorem test_request_port_call_passes : Request.wellFormed (.call (.portGet "eax".toList)) = true := by
  decide
theorem test_line_with_space_first_refused : SourceLine.wellFormed ⟨" pop eax".toList, 1⟩ = false := by
  decide
theorem test_line_with_tab_last_refused : SourceLine.wellFormed ⟨"pop eax\t".toList, 1⟩ = false := by
  decide
theorem test_line_empty_refused : SourceLine.wellFormed ⟨[], 1⟩ = false := by decide
theorem test_line_with_newline_refused : SourceLine.wellFormed ⟨"pop\neax".toList, 1⟩ = false := by decide
theorem test_line_number_zero_refused : SourceLine.wellFormed ⟨"pop eax".toList, 0⟩ = false := by decide
theorem test_line_passes : SourceLine.wellFormed ⟨"pop eax".toList, 1⟩ = true := by decide
theorem test_lines_out_of_order_refused :
    ¬ linesWellFormed [⟨"pop eax".toList, 2⟩, ⟨"pop ebx".toList, 2⟩] := by decide
theorem test_lines_pass : linesWellFormed [⟨"pop eax".toList, 2⟩, ⟨"pop ebx".toList, 4⟩] := by decide
theorem test_memory_unsorted_refused : ¬ Memory.wf [(2, 1), (1, 1)] := by decide
theorem test_memory_unlisted_byte_refused : ¬ Memory.wf [(2, Config.unlistedByte)] := by decide
theorem test_memory_passes : Memory.wf [(1, 1), (2, 1)] := by decide

/-! ### Decode -/

/-- D-2. -/
theorem test_decode_mov : decode "  mov\teax   0x1F  ".toList = .instr (.mov .eax (.imm 0x1F)) := by decide
/-- D-19. -/
theorem test_decode_add : decode "add ebx ad".toList = .instr (.add .ebx (.imm 0xAD)) := by decide
/-- D-26. -/
theorem test_decode_sub : decode "sub esp 4".toList = .instr (.sub .esp (.imm 4)) := by decide
/-- D-25. -/
theorem test_decode_push : decode "push [ffffffffff]".toList = .instr (.push (.mem 0xFFFFFFFFFF)) := by
  decide
/-- R80. -/
theorem test_decode_pop : decode "pop ecx".toList = .instr (.pop .ecx) := by decide
/-- D-11: dest before src. -/
theorem test_decode_dest_first : decode "mov 5 zz".toList = .raises (.unknownRegister "5".toList) := by decide
/-- D-13: opcode before count. -/
theorem test_decode_opcode_first : decode "jmp".toList = .raises (.unknownOpcode "jmp".toList) := by decide
/-- D-20. -/
theorem test_decode_count : decode "mov eax [ 10 ]".toList = .raises (.invalidOperands "mov".toList) := by
  decide
/-- D-8. -/
theorem test_decode_src : decode "mov eax []".toList = .raises (.invalidOperand "[]".toList) := by decide
/-- R87: a port operation is no opcode. -/
theorem test_decode_port_is_unknown : decode "mul eax 2".toList = .raises (.unknownOpcode "mul".toList) := by
  decide
/-- E-2. -/
theorem test_lines : programLines "\nmov eax 1\n\n  bad\n".toList =
    [⟨"mov eax 1".toList, 2⟩, ⟨"bad".toList, 4⟩] := by decide
/-- D-28. -/
theorem test_blank_lines : programLines "\n  \n\t\n".toList = [] := by decide
/-- The letters of `mov eax 10`, the first one lowest (log 1), with A-1. -/
theorem test_number_form :
    decodeTableWord 80 0x30312078616520766F6D = some (.mov .eax (.imm 0x10)) := by decide
/-- A-1 as the first step after reset with the line placed. -/
theorem test_step_after_reset :
    see (fun t => t.getReg .eax) (step (State.reset.withFetchWord 80 0x30312078616520766F6D)) =
      some 0x10 := by decide

/-! ### mov, add, sub, push, pop -/

/-- A-3. -/
theorem test_mov_truncates : see (fun t => t.getReg .eax) (exec (.mov .eax (.imm 0x1FFFFFFFF)) (inRun small)) =
    some 0xFFFFFFFF := by decide
/-- A-5. -/
theorem test_mov_loads_a_byte : see (fun t => t.getReg .eax)
    (exec (.mov .eax (.mem 0x20)) (set1 .eax 0xFFFFFFFF 0x20 0xAB)) = some 0xAB := by decide
/-- A-8. -/
theorem test_add_wraps : see (fun t => t.getReg .eax) (exec (.add .eax (.imm 1)) (set1 .eax 0xFFFFFFFF 0 0)) =
    some 0 := by decide
/-- A-15. -/
theorem test_add_memory : see (fun t => t.getReg .eax)
    (exec (.add .eax (.mem 0x30)) (set1 .eax 0x10 0x30 0xFF)) = some 0x10F := by decide
/-- A-17. -/
theorem test_sub_wraps : see (fun t => t.getReg .eax)
    (exec (.sub .eax (.imm 0x100000005)) (set1 .eax 3 0 0)) = some 0xFFFFFFFE := by decide
/-- A-20. -/
theorem test_sub_out_of_range : see (fun t => (t.getReg .ecx, t.run))
    (exec (.sub .ecx (.mem 0x400)) (runOf (set1 .ecx 0x11 0 0) "sub ecx [400]")) =
      some (0x11, .faulted ⟨.outOfBounds 0x400, 0, 1, "sub ecx [400]".toList⟩) := by decide
/-- S-3. -/
theorem test_push_esp : see (fun t => (t.getReg .esp, t.byteAt 0xFC, t.byteAt 0xFD))
    (exec (.push (.reg .esp)) (set1 .esp 0x100 0xFD 0x99)) = some (0xFC, 0xFC, 0x99) := by decide
/-- S-5. -/
theorem test_push_keeps_the_decrement : see (fun t => (t.getReg .esp, t.mem))
    (exec (.push (.mem 0x400)) (set1 .esp 0x100 0xFC 0x12)) = some (0xFC, [(0xFC, 0x12)]) := by decide
/-- S-8. -/
theorem test_pop : see (fun t => (t.getReg .ecx, t.getReg .esp))
    (exec (.pop .ecx) (set1 .esp 0xFC 0xFC 0x10)) = some (0x10, 0x100) := by decide
/-- S-11. -/
theorem test_pop_esp : see (fun t => t.getReg .esp) (exec (.pop .esp) (set1 .esp 0xFC 0xFC 0x99)) =
    some 0x9D := by decide

/-! ### The register port -/

/-- U-25. -/
theorem test_get : see (fun t => t.result) (exec (.portGet "esp".toList) small) =
    some (some (.u32 0)) := by decide
/-- U-21. -/
theorem test_get_unknown : see (fun t => t.result) (exec (.portGet "EAX".toList) small) =
    some (some (.failed (.unknownRegister "EAX".toList))) := by decide
/-- U-22. -/
theorem test_set : see (fun t => t.getReg .eax) (exec (.portSet "eax".toList 0x100000005) small) =
    some 5 := by decide
/-- U-19. -/
theorem test_port_add : see (fun t => t.getReg .eax)
    (exec (.portAdd "eax".toList 1) (small.setReg .eax 0xFFFFFFFF)) = some 0 := by decide
/-- U-20. -/
theorem test_port_sub : see (fun t => t.getReg .eax) (exec (.portSub "eax".toList 1) small) =
    some 0xFFFFFFFF := by decide
/-- U-11. -/
theorem test_port_mul : see (fun t => t.getReg .eax)
    (exec (.portMul "eax".toList 0xFFFFFFFF) (small.setReg .eax 0xFFFFFFFF)) = some 1 := by decide
/-- U-14. -/
theorem test_port_div : see (fun t => t.getReg .eax)
    (exec (.portDiv "eax".toList 5) (small.setReg .eax 0x1B)) = some 5 := by decide
/-- U-15. -/
theorem test_port_div_by_zero : see (fun t => (t.getReg .eax, t.result))
    (exec (.portDiv "eax".toList 0) (small.setReg .eax 7)) = some (7, some (.failed .divisionByZero)) := by
  decide
/-- U-18. -/
theorem test_port_and : see (fun t => t.getReg .eax)
    (exec (.portAnd "eax".toList 0x0FF0) (small.setReg .eax 0xF0F0)) = some 0x00F0 := by decide
/-- U-18. -/
theorem test_port_or : see (fun t => t.getReg .eax)
    (exec (.portOr "eax".toList 0x0FF0) (small.setReg .eax 0xF0F0)) = some 0xFFF0 := by decide
/-- U-18. -/
theorem test_port_xor : see (fun t => t.getReg .eax)
    (exec (.portXor "eax".toList 0x0FF0) (small.setReg .eax 0xF0F0)) = some 0xFF00 := by decide
/-- U-7. -/
theorem test_port_shl : see (fun t => t.getReg .eax)
    (exec (.portShl "eax".toList 4) (small.setReg .eax 0x12345678)) = some 0x23456780 := by decide
/-- U-8. -/
theorem test_port_shr : see (fun t => t.getReg .eax)
    (exec (.portShr "eax".toList 31) (small.setReg .eax 0xFFFFFFFF)) = some 1 := by decide
/-- U-10. -/
theorem test_port_shr_amount : see (fun t => (t.getReg .eax, t.result))
    (exec (.portShr "eax".toList 100) (small.setReg .eax 1)) =
      some (1, some (.failed (.invalidShiftAmount 100))) := by decide
/-- U-5. -/
theorem test_port_rol : see (fun t => t.getReg .eax)
    (exec (.portRol "eax".toList 4) (small.setReg .eax 0x12345678)) = some 0x23456781 := by decide
/-- U-2. -/
theorem test_port_ror : see (fun t => t.getReg .eax)
    (exec (.portRor "eax".toList 1) (small.setReg .eax 3)) = some 0x80000001 := by decide

/-! ### The memory ports -/

/-- M[0x10..0x13] = 44 33 22 11, what M-1 stores. -/
def dword : State := small.setMem [(0x10, 0x44), (0x11, 0x33), (0x12, 0x22), (0x13, 0x11)]

/-- M-1. -/
theorem test_read_byte : see (fun t => t.result) (exec (.portReadByte 0x13) dword) =
    some (some (.u8 0x11)) := by decide
/-- M-5. -/
theorem test_read_byte_out_of_range : see (fun t => t.result) (exec (.portReadByte 0x400) dword) =
    some (some (.failed (.outOfBounds 0x400))) := by decide
/-- R45. -/
theorem test_write_byte : see (fun t => t.mem) (exec (.portWriteByte 0x12 0) dword) =
    some [(0x10, 0x44), (0x11, 0x33), (0x13, 0x11)] := by decide
/-- M-1. -/
theorem test_read_word : see (fun t => t.result) (exec (.portReadWord 0x12) dword) =
    some (some (.u16 0x1122)) := by decide
/-- M-6. -/
theorem test_write_word : see (fun t => t.mem) (exec (.portWriteWord 0x21 0xBEEF) small) =
    some [(0x21, 0xEF), (0x22, 0xBE)] := by decide
/-- M-2. -/
theorem test_write_word_all_or_nothing : see (fun t => (t.mem, t.result))
    (exec (.portWriteWord 0x3FF 0xABCD) (small.setMem [(0x3FF, 0x66)])) =
      some ([(0x3FF, 0x66)], some (.failed (.outOfBounds 0x3FF))) := by decide
/-- M-1. -/
theorem test_read_dword : see (fun t => t.result) (exec (.portReadDword 0x10) dword) =
    some (some (.u32 0x11223344)) := by decide
/-- M-1. -/
theorem test_write_dword : see (fun t => t.mem) (exec (.portWriteDword 0x10 0x11223344) small) =
    some [(0x10, 0x44), (0x11, 0x33), (0x12, 0x22), (0x13, 0x11)] := by decide
/-- G-1. -/
theorem test_read_byte_seg : see (fun t => t.result) (exec (.portReadByteSeg 1 0) dword) =
    some (some (.u8 0x44)) := by decide
/-- G-4. -/
theorem test_read_byte_seg_no_wrap : see (fun t => t.result) (exec (.portReadByteSeg 0xFFFF 0x10) dword) =
    some (some (.failed (.outOfBounds 0x100000))) := by decide
/-- G-2. -/
theorem test_write_byte_seg : see (fun t => t.mem) (exec (.portWriteByteSeg 0x3F 0xF 0x5A) small) =
    some [(0x3FF, 0x5A)] := by decide
/-- G-6. -/
theorem test_read_word_seg : see (fun t => t.result) (exec (.portReadWordSeg 0x3F 0xF) small) =
    some (some (.failed (.outOfBounds 0x3FF))) := by decide
/-- R51 with M-6. -/
theorem test_write_word_seg : see (fun t => t.mem) (exec (.portWriteWordSeg 2 1 0xBEEF) small) =
    some [(0x21, 0xEF), (0x22, 0xBE)] := by decide
/-- R51 with M-1. -/
theorem test_read_dword_seg : see (fun t => t.result) (exec (.portReadDwordSeg 0 0x10) dword) =
    some (some (.u32 0x11223344)) := by decide
/-- G-5. -/
theorem test_write_dword_seg : see (fun t => t.mem) (exec (.portWriteDwordSeg 0x3F 0xC 0xAABBCCDD) small) =
    some [(0x3FC, 0xDD), (0x3FD, 0xCC), (0x3FE, 0xBB), (0x3FF, 0xAA)] := by decide

/-! ### One step of the machine -/

/-- L1.10. -/
theorem test_step_unknown_opcode : see (fun t => (t.run, t.regs)) (step (runOf small "jmp eax")) =
    some (.faulted ⟨.unknownOpcode "jmp".toList, 0, 1, "jmp eax".toList⟩, RegFile.zero) := by decide
/-- E-7. -/
theorem test_step_empty_program : see (fun t => (t.run, t.regs)) (step (runOf small "")) =
    some (.done, RegFile.zero) := by decide
/-- R100, R110, R200: the outcome is returned, and between runs the run state is Idle. -/
theorem test_step_returns_the_outcome :
    see (fun t => (t.run, t.result)) (step (small.setRun .done)) = some (.idle, some .runDone) := by decide
/-- R110, R188, R200. -/
theorem test_step_returns_the_record : see (fun t => (t.run, t.result))
    (step (small.endFaulted ⟨.unknownOpcode "jmp".toList, 0, 1, "jmp eax".toList⟩)) =
      some (.idle, some (.runFaulted ⟨.unknownOpcode "jmp".toList, 0, 1, "jmp eax".toList⟩)) := by
  decide
/-- R33, R34: a port call is served between runs. -/
theorem test_step_serves_the_host :
    see (fun t => (t.getReg .esp, t.requests))
      (step (small.setRequests [.call (.portSet "esp".toList 0x100), .dump])) =
        some (0x100, [.dump]) := by decide
/-- R36, R59: the viewer reads before the line runs. -/
theorem test_step_viewer : see (fun t => (t.viewerResult, t.run))
    (step ((inRun dword).setViewer [.read 1 3])) =
      some (some (.u8 0x11), (inRun dword).run) := by decide

/-! ### Witnesses: hypotheses of the statements, met together -/

theorem hexDigit_mem {c : Char} {d : Nat} (h : HexDigit c d) : c ∈ "0123456789abcdefABCDEFxX".toList := by
  rcases h with h | h
  · have := List.mem_of_getElem? h
    revert this; simp; tauto
  · have := List.mem_of_getElem? h
    revert this; simp; tauto

theorem hexDigits_mem {t : Text} {n : Nat} (h : HexDigits t n) :
    ∀ c ∈ t, c ∈ "0123456789abcdefABCDEFxX".toList := by
  induction h with
  | single h => intro c hc; rw [List.mem_singleton.1 hc]; exact hexDigit_mem h
  | more hs h ih =>
    intro c hc
    rcases List.mem_append.1 hc with hc | hc
    · exact ih c hc
    · rw [List.mem_singleton.1 hc]; exact hexDigit_mem h

/-- A character that occurs in no hex literal. -/
theorem hexLiteral_mem {t : Text} {n : Nat} (h : HexLiteral t n) :
    ∀ c ∈ t, c ∈ "0123456789abcdefABCDEFxX".toList := by
  rcases h with h | ⟨ds, rfl | rfl, h⟩
  · exact hexDigits_mem h
  all_goals
    intro c hc
    simp only [List.mem_cons] at hc
    rcases hc with rfl | rfl | hc
    · decide
    · decide
    · exact hexDigits_mem h c hc

/-- `eax,` is no operand (D-15) and no register name (R85). -/
theorem witness_no_operand :
    (∀ o, ¬ OperandSpelling "eax,".toList o) ∧ NoRegister "eax,".toList := by
  refine ⟨fun o h => ?_, fun r => by cases r <;> decide⟩
  generalize ht : "eax,".toList = t at h
  cases h with
  | imm h => subst ht; exact absurd (hexLiteral_mem h ',' (by decide)) (by decide)
  | reg r => cases r <;> simp [Reg.name] at ht
  | mem h => simp at ht

theorem witness_operands : OperandSpelling "1F".toList (.imm 0x1F) ∧ OperandSpelling "eax".toList (.reg .eax) ∧
    OperandSpelling "[0]".toList (.mem 0) := by
  refine ⟨.imm (.inl ?_), .reg .eax, .mem (t := ['0']) (.inl (.single (.inl rfl)))⟩
  exact .more (ds := ['1']) (d := 15) (.single (d := 1) (.inl rfl)) (.inr rfl)

theorem witness_ProgramTextSplitsIntoLines :
    ([[]] : List Text) ≠ [] ∧ (∀ p ∈ ([['a', '\r'], [], [' ', 'b']] : List Text), '\n' ∉ p) := by simp

theorem witness_TokensSplitAtWhitespace :
    ['a', ',', 'b'] ≠ [] ∧ (∀ c ∈ ['a', ',', 'b'], isSpace c = false) ∧ isSpace '\t' = true := by
  simp [isSpace]

theorem witness_NameLiteralAndBracketAreApart :
    ("[]".toList.head? = some '[' ∧ "[]".toList.getLast? = some ']') ∧
    ("[eax]".toList.head? = some '[' ∧ "[eax]".toList.getLast? = some ']') := by decide

/-- Each clause: opcode, count of two, count of one, dest of two, dest of `pop`, src of two, src of
`push`. -/
theorem witness_IllegalLinesRaise :
    (tokens "jmp eax".toList = ["jmp".toList, "eax".toList] ∧
      "jmp".toList ∉ ["mov".toList, "add".toList, "sub".toList, "push".toList, "pop".toList]) ∧
    (tokens "mov eax".toList = ["mov".toList, "eax".toList] ∧ ["eax".toList].length ≠ 2) ∧
    (tokens "pop".toList = ["pop".toList] ∧ ([] : List Text).length ≠ 1) ∧
    tokens "add eax, 1".toList = ["add".toList, "eax,".toList, "1".toList] ∧
    tokens "pop eax,".toList = ["pop".toList, "eax,".toList] ∧
    tokens "sub edi eax,".toList = ["sub".toList, Reg.edi.name, "eax,".toList] ∧
    tokens "push eax,".toList = ["push".toList, "eax,".toList] := by decide

theorem witness_IllegalLinesRaise_step :
    (runOf small "jmp eax").viewer = [] ∧
    (runOf small "jmp eax").atLine [⟨"jmp eax".toList, 1⟩] 0 ⟨"jmp eax".toList, 1⟩ :=
  ⟨rfl, by decide, rfl⟩

theorem witness_LegalLinesDecode :
    tokens "mov eax 1F".toList = ["mov".toList, Reg.eax.name, "1F".toList] ∧
    tokens "add ebx eax".toList = ["add".toList, Reg.ebx.name, "eax".toList] ∧
    tokens "sub edi [0]".toList = ["sub".toList, Reg.edi.name, "[0]".toList] ∧
    tokens "push [0]".toList = ["push".toList, "[0]".toList] ∧
    tokens "pop esp".toList = ["pop".toList, Reg.esp.name] := by decide

theorem witness_DecodeOfEncodeIsTheInstruction :
    (Instr.mov .edi (.mem (2 ^ 40))).textual = true ∧
    decode "push 0".toList = .instr (.push (.imm 0)) ∧ tokens ";".toList ≠ [] := by decide

/-! States of runs and between runs. -/

theorem small_wf : small.wf where
  sizeLow := by decide
  sizeHigh := by decide
  canonical := Memory.wf_nil
  inside := by intro c hc; cases hc
  runWf := trivial
  requestsWf := by intro r hr; cases hr

theorem witness_ConstructionLeavesTheStatedState :
    0x3FF < 0x400 ∧ ∃ t, Host.Core.run Sys2Proof.core 3
      (((State.construct 5 (fun _ => 7)).setRequests
        [.executeProgram "mov esp 5\npush 1".toList]).setViewer [.read 0 0]) = .next t :=
  ⟨by decide, exists_next (by decide)⟩

theorem witness_ConstructionMeetsTheInvariant :
    (1 ≤ 1 ∧ 1 ≤ 2 ^ 32) ∧ (1 ≤ 2 ^ 32 ∧ 2 ^ 32 ≤ 2 ^ 32) := by decide

theorem inRun_run (s : State) : (inRun s).run = .running [⟨"mov eax eax".toList, 1⟩] 0 := by
  have h : programLines "mov eax eax".toList = [⟨"mov eax eax".toList, 1⟩] := by decide
  exact congrArg (RunState.running · 0) h

theorem inRun_atLine (s : State) :
    (inRun s).atLine [⟨"mov eax eax".toList, 1⟩] 0 ⟨"mov eax eax".toList, 1⟩ := ⟨inRun_run s, rfl⟩

/-- A run of two equal lines, at the first. -/
def twoLines (s : State) : State := runOf s "mov eax eax\nmov eax eax"

theorem twoLines_atLine (s : State) : (twoLines s).atLine
    [⟨"mov eax eax".toList, 1⟩, ⟨"mov eax eax".toList, 2⟩] 0 ⟨"mov eax eax".toList, 1⟩ := by
  have h : programLines "mov eax eax\nmov eax eax".toList =
      [⟨"mov eax eax".toList, 1⟩, ⟨"mov eax eax".toList, 2⟩] := by decide
  exact ⟨congrArg (RunState.running · 0) h, rfl⟩

theorem inRun_small_wf : (inRun small).wf where
  sizeLow := by decide
  sizeHigh := by decide
  canonical := Memory.wf_nil
  inside := by intro c hc; cases hc
  runWf := by rw [inRun_run]; exact ⟨by decide, Nat.zero_le _⟩
  requestsWf := by intro r hr; cases hr

theorem witness_StepKeepsTheInvariant :
    (inRun small).wf ∧ ∃ t, step (inRun small) = .next t :=
  ⟨inRun_small_wf, exists_next (by decide)⟩

theorem witness_NoStepStopsTheMachine : small.wf ∧ (inRun small).wf := ⟨small_wf, inRun_small_wf⟩

theorem witness_MemorySizeIsFixed : ∃ t, step (small.setRequests [.call (.portSet [] 0)]) = .next t :=
  exists_next (by decide)

theorem witness_StepRunsTheDecodedInstruction :
    (inRun small).atLine [⟨"mov eax eax".toList, 1⟩] 0 ⟨"mov eax eax".toList, 1⟩ ∧
    decode "mov eax eax".toList = .instr (.mov .eax (.reg .eax)) ∧
    (inRun small).viewer = [] ∧ ((inRun small).setViewer [.pass]).viewer = .pass :: [] :=
  ⟨inRun_atLine small, by decide, rfl, rfl⟩

theorem witness_FetchTakesTheLineAtThePosition :
    ((runOf small "").viewer = [] ∧ (runOf small "").run = .running [] 0 ∧
      0 = ([] : List SourceLine).length) ∧
    (inRun small).viewer = [] ∧
    (inRun small).atLine [⟨"mov eax eax".toList, 1⟩] 0 ⟨"mov eax eax".toList, 1⟩ :=
  ⟨⟨rfl, by decide, rfl⟩, rfl, inRun_atLine small⟩

theorem witness_PositionOnlyAdvances :
    (inRun small).run = .running [⟨"mov eax eax".toList, 1⟩] 0 ∧ ∃ t, step (inRun small) = .next t :=
  ⟨inRun_run small, exists_next (by decide)⟩

/-- At decode; at execute, in `push` and in another instruction. -/
theorem witness_ErrorInAStepKeepsTheState :
    (runOf small "bad").atLine [⟨"bad".toList, 1⟩] 0 ⟨"bad".toList, 1⟩ ∧
    decode "bad".toList = .raises (.unknownOpcode "bad".toList) ∧
    see State.run (step (runOf small "push 1")) =
      some (.faulted ⟨.outOfBounds 0xFFFFFFFC, 0, 1, "push 1".toList⟩) ∧
    decode "push 1".toList = .instr (.push (.imm 1)) ∧
    see State.run (step (runOf small "add eax [400]")) =
      some (.faulted ⟨.outOfBounds 0x400, 0, 1, "add eax [400]".toList⟩) ∧
    decode "add eax [400]".toList = .instr (.add .eax (.mem 0x400)) :=
  ⟨⟨by decide, rfl⟩, by decide, by decide, by decide, by decide, by decide⟩

theorem witness_FaultRecordFollowsTheErrorTable :
    ∃ rec : FaultRecord, rec = ⟨.invalidShiftAmount 32, 0, 1, []⟩ := ⟨_, rfl⟩

theorem witness_EveryRunEnds :
    (runOf small "push 1").run = .running (programLines "push 1".toList) 0 ∧
    (runOf small "").run = .running (programLines []) 0 := ⟨rfl, rfl⟩

/-- The host has issued some calls between runs. -/
def waiting (rs : List Request) : State := small.setRequests rs

/-- The host has issued some calls and the outcome of a faulted run is still to be returned. -/
def faultedWaiting (rs : List Request) : State :=
  (waiting rs).endFaulted ⟨.outOfBounds 0x400, 0, 1, "push [400]".toList⟩

theorem waiting_betweenRuns (rs : List Request) : (waiting rs).betweenRuns := rfl

/-- Both outcomes. -/
theorem witness_EndedRunReturnsToIdle :
    ((small.setRun .done).viewer = [] ∧ (small.setRun .done).run = .done) ∧
    (faultedWaiting []).viewer = [] ∧
    (faultedWaiting []).run = .faulted ⟨.outOfBounds 0x400, 0, 1, "push [400]".toList⟩ :=
  ⟨⟨rfl, rfl⟩, rfl, rfl⟩

theorem witness_BlankProgramIsDone :
    (∀ c ∈ [' ', '\n', '\t'], isSpace c = true) ∧ (waiting [.executeProgram [' ', '\n', '\t']]).betweenRuns ∧
    programLines [' ', '\n', '\t'] = [] := ⟨by simp [isSpace], waiting_betweenRuns _, by decide⟩

theorem witness_ProgramCallBeginsAtItsFirstLine :
    ((waiting [.executeProgram "add eax 1".toList]).betweenRuns ∧
      (waiting [.executeProgram "add eax 1".toList]).viewer = []) ∧
    ((waiting [.executeProgram []]).setRun .done).run = .done ∧
    (faultedWaiting [.executeProgram []]).run = .faulted ⟨.outOfBounds 0x400, 0, 1, "push [400]".toList⟩ ∧
    (faultedWaiting [.executeProgram []]).requests = .executeProgram [] :: [] :=
  ⟨⟨waiting_betweenRuns _, rfl⟩, rfl, rfl, rfl⟩

theorem witness_HostCallsAreServedBetweenRuns :
    ((waiting []).betweenRuns ∧ (waiting []).requests = []) ∧
    ((waiting [.call (.portGet [])]).betweenRuns ∧
      (waiting [.call (.portGet [])]).requests = .call (.portGet []) :: []) ∧
    ((faultedWaiting []).run = .faulted ⟨.outOfBounds 0x400, 0, 1, "push [400]".toList⟩ ∧
      (faultedWaiting []).requests = []) ∧
    (faultedWaiting [.call (.portGet [])]).requests = .call (.portGet []) :: [] :=
  ⟨⟨waiting_betweenRuns _, rfl⟩, ⟨waiting_betweenRuns _, rfl⟩, ⟨rfl, rfl⟩, rfl⟩

theorem witness_DumpListsTheRegisters :
    (waiting [.dump]).betweenRuns ∧ (waiting [.dump]).requests = .dump :: [] :=
  ⟨waiting_betweenRuns _, rfl⟩

/-- The last byte of memory and the first address after it. -/
theorem witness_ViewerOnlyReadsAByte :
    (small.setViewer [.read 0x3F 0xF]).viewer = .read 0x3F 0xF :: [] ∧
    0x3F * 16 + 0xF < small.memSize ∧ small.memSize ≤ 0x40 * 16 + 0 := by decide

/-- A next state, and the two stops, in states no run reaches. -/
theorem witness_ViewerCannotChangeARun :
    (∃ t, step ((inRun small).setViewer [.pass]) = .next t) ∧
    step (small.setRun (.running [] 1)) = .fault .noCurrentLine ∧
    step (small.setRun (.running [⟨[], 1⟩] 0)) = .refused .lineWithoutTokens :=
  ⟨exists_next (by decide), rfl, rfl⟩

theorem witness_OnlyPushAndWritePortsChangeMemory :
    (see State.mem (step (runOf (small.setReg .esp 4) "push 7")) = some [(0, 7)] ∧
      (runOf (small.setReg .esp 4) "push 7").mem = []) ∧
    see State.mem (step (small.setRequests [.call (.portWriteByte 0x3FF 1)])) = some [(0x3FF, 1)] ∧
    ((small.setRequests [.call (.portWriteByte 0x3FF 1)]).betweenRuns ∧ small.mem = []) := by
  refine ⟨by decide, by decide, rfl, by decide⟩

/-! Program-text instructions. -/

theorem readable_imm (n : Nat) (s : State) : readable (.imm n) s := by intro a h; cases h

theorem readable_reg (r : Reg) (s : State) : readable (.reg r) s := by intro a h; cases h

/-- The last byte of memory is readable, and so are a register and a literal. -/
theorem witness_readable : readable (.mem 0x3FF) (inRun small) ∧ readable (.reg .esp) (inRun small) ∧
    readable (.imm (2 ^ 40)) (inRun small) := by
  refine ⟨fun a h => ?_, readable_reg _ _, readable_imm _ _⟩
  cases h
  decide

theorem witness_MovWritesTheSourceValue :
    (inRun small).atLine [⟨"mov eax eax".toList, 1⟩] 0 ⟨"mov eax eax".toList, 1⟩ ∧
    readable (.mem 0x3FF) (inRun small) := ⟨inRun_atLine small, witness_readable.1⟩

theorem witness_AddAndSubWriteTheResult :
    (inRun small).atLine [⟨"mov eax eax".toList, 1⟩] 0 ⟨"mov eax eax".toList, 1⟩ ∧
    readable (.reg .esp) (inRun small) := ⟨inRun_atLine small, witness_readable.2.1⟩

theorem witness_SourceOutOfRangeEndsTheRun :
    (inRun small).atLine [⟨"mov eax eax".toList, 1⟩] 0 ⟨"mov eax eax".toList, 1⟩ ∧
    (inRun small).memSize ≤ 0x400 := ⟨inRun_atLine small, by decide⟩

theorem witness_AddAndSubAreModular :
    (twoLines small).atLine [⟨"mov eax eax".toList, 1⟩, ⟨"mov eax eax".toList, 2⟩] 0
      ⟨"mov eax eax".toList, 1⟩ ∧
    readable (.imm 1) (twoLines small) ∧ Operand.imm 1 ≠ .reg .eax ∧
    see (fun t => (next? (exec (.add .eax (.imm 1)) t)).isSome) (exec (.sub .eax (.imm 1)) (twoLines small)) =
      some true := ⟨twoLines_atLine small, readable_imm _ _, by decide, by decide⟩

theorem witness_SameRegisterIsReadTwice :
    (inRun small).atLine [⟨"mov eax eax".toList, 1⟩] 0 ⟨"mov eax eax".toList, 1⟩ := inRun_atLine small

theorem witness_MovAddSubFrame :
    (∃ t, exec (.mov .eax (.mem 0x3FF)) (inRun small) = .next t) ∧
    (∃ t, exec (.add .eax (.imm 1)) (inRun small) = .next t) ∧
    ∃ t, exec (.sub .eax (.mem 0x400)) (inRun small) = .next t :=
  ⟨exists_next (by decide), exists_next (by decide), exists_next (by decide)⟩

/-- esp at the top of memory: the slot is the last four bytes. -/
def top : State := inRun (small.setReg .esp 0x400)

theorem witness_PushStoresTheLowByte :
    top.atLine [⟨"mov eax eax".toList, 1⟩] 0 ⟨"mov eax eax".toList, 1⟩ ∧
    readable (.mem 0x3FF) top ∧ pushAddress top < top.memSize ∧ pushAddress top = 0x3FC :=
  ⟨inRun_atLine _, fun a h => by cases h; decide, by decide, by decide⟩

theorem witness_PushFrame : top.mem.wf ∧ (∃ t, exec (.push (.reg .eax)) top = .next t) ∧
    ∃ t, exec (.push (.mem 0x400)) top = .next t :=
  ⟨Memory.wf_nil, exists_next (by decide), exists_next (by decide)⟩

/-- Also with esp = 0x100, the rule's example. -/
theorem witness_PushEspStoresTheNewValue :
    (top.mem.wf ∧ top.atLine [⟨"mov eax eax".toList, 1⟩] 0 ⟨"mov eax eax".toList, 1⟩ ∧
      pushAddress top < top.memSize) ∧
    pushAddress (inRun (small.setReg .esp 0x100)) < (inRun (small.setReg .esp 0x100)).memSize ∧
    (inRun (small.setReg .esp 0x100)).getReg .esp = 0x100 :=
  ⟨⟨Memory.wf_nil, inRun_atLine _, by decide⟩, by decide, by decide⟩

/-- A source just out of range; a slot just out of range. -/
theorem witness_FailedPushKeepsTheDecrement :
    (inRun small).atLine [⟨"mov eax eax".toList, 1⟩] 0 ⟨"mov eax eax".toList, 1⟩ ∧
    (inRun small).memSize ≤ 0x400 ∧
    readable (.reg .eax) (inRun (small.setReg .esp 0x404)) ∧
    (inRun (small.setReg .esp 0x404)).memSize ≤ pushAddress (inRun (small.setReg .esp 0x404)) :=
  ⟨inRun_atLine small, by decide, readable_reg _ _, by decide⟩

/-- esp at the last byte and just after it. -/
theorem witness_PopLoadsOneByte :
    (inRun (small.setReg .esp 0x3FF)).atLine [⟨"mov eax eax".toList, 1⟩] 0 ⟨"mov eax eax".toList, 1⟩ ∧
    ((inRun (small.setReg .esp 0x3FF)).getReg .esp).toNat < (inRun (small.setReg .esp 0x3FF)).memSize ∧
    top.memSize ≤ (top.getReg .esp).toNat := ⟨inRun_atLine _, by decide, by decide⟩

theorem witness_PopFrame : (∃ t, exec (.pop .ecx) (inRun small) = .next t) ∧
    ∃ t, exec (.pop .ecx) top = .next t := ⟨exists_next (by decide), exists_next (by decide)⟩

theorem witness_PopEspAddsFourToTheByte :
    (inRun small).atLine [⟨"mov eax eax".toList, 1⟩] 0 ⟨"mov eax eax".toList, 1⟩ ∧
    ((inRun small).getReg .esp).toNat < (inRun small).memSize := ⟨inRun_atLine small, by decide⟩

theorem witness_PushThenPopRestoresTheStack :
    (twoLines (small.setReg .esp 4)).mem.wf ∧
    (twoLines (small.setReg .esp 4)).atLine
      [⟨"mov eax eax".toList, 1⟩, ⟨"mov eax eax".toList, 2⟩] 0 ⟨"mov eax eax".toList, 1⟩ ∧
    0 + 1 < [(⟨"mov eax eax".toList, 1⟩ : SourceLine), ⟨"mov eax eax".toList, 2⟩].length ∧
    readable (.reg .esp) (twoLines (small.setReg .esp 4)) ∧
    pushAddress (twoLines (small.setReg .esp 4)) < (twoLines (small.setReg .esp 4)).memSize :=
  ⟨Memory.wf_nil, twoLines_atLine _, by decide, readable_reg _ _, by decide⟩

/-- A machine of 2^32 bytes. -/
def whole : State := { State.reset with memSize := 2 ^ 32 }

/-- esp just below 4, with the wrapped slot in range and out of it; esp at 2^32 - 4. -/
theorem witness_StackPointerWraps :
    (((inRun (small.setReg .esp 3)).getReg .esp).toNat < 4 ∧
      (inRun (small.setReg .esp 3)).memSize ≤ ((inRun (small.setReg .esp 3)).getReg .esp).toNat + 2 ^ 32 - 4) ∧
    (((inRun (whole.setReg .esp 3)).getReg .esp).toNat < 4 ∧
      ((inRun (whole.setReg .esp 3)).getReg .esp).toNat + 2 ^ 32 - 4 < (inRun (whole.setReg .esp 3)).memSize) ∧
    (2 ^ 32 - 4 ≤ ((inRun (whole.setReg .esp 0xFFFFFFFC)).getReg .esp).toNat ∧
      ((inRun (whole.setReg .esp 0xFFFFFFFC)).getReg .esp).toNat <
        (inRun (whole.setReg .esp 0xFFFFFFFC)).memSize ∧ Reg.ebx ≠ .esp) := by decide

theorem witness_FirstPushAfterConstructionFaults :
    [(⟨"push 1".toList, 1⟩ : SourceLine)][0]? = some ⟨"push 1".toList, 1⟩ ∧ 0xFFFFFFFC ≤ 0xFFFFFFFC ∧
    readable (.imm 1) ((State.construct 0xFFFFFFFC (fun _ => 0)).atPosition [⟨"push 1".toList, 1⟩] 0) :=
  ⟨rfl, le_rfl, readable_imm _ _⟩

/-! Ports. -/

theorem noRegister_upper : NoRegister "EAX".toList := by intro r; cases r <;> decide

theorem witness_GetAndSetReachTheRegister : NoRegister "EAX".toList ∧ NoRegister [] :=
  ⟨noRegister_upper, by intro r; cases r <;> decide⟩

theorem witness_PortArithmeticIsModular : NoRegister "EAX".toList := noRegister_upper

theorem witness_PortDivideRoundsDown : (1 : U32) ≠ 0 ∧ NoRegister "EAX".toList :=
  ⟨by decide, noRegister_upper⟩

theorem witness_PortBitwiseOperations : NoRegister "EAX".toList := noRegister_upper

theorem witness_PortShiftsAndRotates : 0 < 32 ∧ 31 < 32 ∧ 32 ≤ 32 ∧ NoRegister "EAX".toList :=
  ⟨by decide, by decide, by decide, noRegister_upper⟩

theorem witness_RegisterOperationLaws : (0 < 32 ∧ 31 < 32 ∧ 1 ≤ 31) ∧
    ((small.setReg .eax 0x10000).getReg .eax).toNat * (0xFFFF : U32).toNat < 2 ^ 32 ∧
    (0xFFFF : U32) ≠ 0 := by decide

theorem witness_UnknownNamesRaiseUnknownRegister : NoRegister "eax,".toList ∧
    tokens "mov eax, 1".toList ∈ [["mov".toList, "eax,".toList, "1".toList],
      ["add".toList, "eax,".toList, "1".toList], ["sub".toList, "eax,".toList, "1".toList],
      ["pop".toList, "eax,".toList]] := ⟨witness_no_operand.2, by decide⟩

theorem witness_RegisterPortFrame :
    (∃ t, exec (.portRor "eax".toList 31) small = .next t) ∧ Reg.ebx.name ≠ "eax".toList ∧
    ∃ t, exec (.portGet "eax".toList) small = .next t :=
  ⟨exists_next (by decide), by decide, exists_next (by decide)⟩

theorem witness_ErrorOutsideARunChangesNothing : (Instr.portDiv "eax".toList 0).port = true ∧
    see State.result (exec (.portDiv "eax".toList 0) small) = some (some (.failed .divisionByZero)) := by
  decide

/-- The last access in range and the first out of it, for each width. -/
theorem witness_MemReadAndMemWrite :
    (1 ∈ [1, 2, 4] ∧ 2 ∈ [1, 2, 4] ∧ 4 ∈ [1, 2, 4]) ∧
    (0x3FF + 1 - 1 < small.memSize ∧ small.memSize ≤ 0x400 + 1 - 1) ∧
    (0x3FE + 2 - 1 < small.memSize ∧ small.memSize ≤ 0x3FF + 2 - 1) ∧
    (0x3FC + 4 - 1 < small.memSize ∧ small.memSize ≤ 0x3FD + 4 - 1) ∧
    small.mem.wf ∧ 2 ^ 32 - 1 < 2 ^ (8 * 4) := by decide

theorem witness_ReadPortsAnswerLittleEndian :
    (0x3FF < small.memSize ∧ small.memSize ≤ 0x400) ∧
    (0x3FE + 1 < small.memSize ∧ small.memSize ≤ 0x3FF + 1) ∧
    (0x3FC + 3 < small.memSize ∧ small.memSize ≤ 0x3FD + 3) := by decide

theorem witness_WritePortsStoreLittleEndian :
    dword.mem.wf ∧ (0x3FF < dword.memSize ∧ dword.memSize ≤ 0x400) ∧
    (0x3FE + 1 < dword.memSize ∧ dword.memSize ≤ 0x3FF + 1) ∧
    (0x3FC + 3 < dword.memSize ∧ dword.memSize ≤ 0x3FD + 3) := by decide

theorem witness_MixedWidthsSeeTheSameBytes :
    dword.mem.wf ∧ 0x3FC + 3 < dword.memSize ∧
    see State.result (exec (.portReadByte 0x13) dword) = some (some (.u8 0x11)) := by decide

theorem witness_SegmentPortsAreFlatAtTheLinearAddress :
    (0x3FF = 0x3F * 16 + 0xF ∧ 0x3FF < small.memSize) ∧ (0x400 = 0x40 * 16 + 0 ∧ small.memSize ≤ 0x400) ∧
    (0x3FE = 0x3F * 16 + 0xE ∧ 0x3FE + 1 < small.memSize ∧ small.memSize ≤ 0x3FF + 1) ∧
    (0x3FC = 0x3F * 16 + 0xC ∧ 0x3FC + 3 < small.memSize ∧ small.memSize ≤ 0x3FD + 3) := by decide

end Sys2Proof.Tests
end

/-! MemRead and MemWrite of 1, 2 and 4 bytes (R13, R14), from the laws of memory. -/

namespace Sys2Proof.Machine

/-- The model weighs byte i by 256^i, R13 and R14 by 2^(8i). -/
theorem two_pow_eight_mul (i : Nat) : 2 ^ (8 * i) = 256 ^ i := pow_mul 2 8 i

/-- `Memory.readBytes` is the sum that R13 writes. -/
theorem Memory.readBytes_eq_sum (m : Memory) (a n : Nat) :
    m.readBytes a n = ∑ i ∈ Finset.range n, (m.read (a + i)).toNat * 2 ^ (8 * i) := by
  simp only [two_pow_eight_mul]
  induction n generalizing a with
  | zero => rfl
  | succ n ih =>
    have hshift : ∀ i, 256 * ((m.read (a + 1 + i)).toNat * 256 ^ i) =
        (m.read (a + (i + 1))).toNat * 256 ^ (i + 1) := fun i => by
      rw [Nat.add_right_comm, Nat.add_assoc, pow_succ', Nat.mul_left_comm]
    rw [Memory.readBytes, ih, Finset.sum_range_succ', Finset.mul_sum,
      Finset.sum_congr rfl fun i _ => hshift i]
    simp [Nat.add_comm]

theorem Memory.read_writeBytes_inside {m : Memory} (hm : m.wf) (a v : Nat) {n i : Nat} (hi : i < n) :
    (m.writeBytes a n v).read (a + i) = trunc8 (v / 2 ^ (8 * i)) := by
  rw [Memory.read_writeBytes hm, if_pos (by omega), Nat.add_sub_cancel_left, two_pow_eight_mul]

theorem Memory.read_writeBytes_outside {m : Memory} (hm : m.wf) {a n x : Nat} (v : Nat)
    (hx : x < a ∨ a + n ≤ x) : (m.writeBytes a n v).read x = m.read x := by
  rw [Memory.read_writeBytes hm, if_neg (by omega)]

/-- Settles O55: for n ≥ 1 the bounds of R13 and R14 are those of the model's check, the value read is
the sum of the bytes, and a write is judged byte by byte, inside and outside the range written. -/
theorem memReadAndMemWrite : Obligations.MemReadAndMemWrite := by
  intro s addr n hn
  have hpos : 1 ≤ n := by
    simp only [List.mem_cons, List.not_mem_nil, or_false] at hn
    omega
  refine ⟨fun hout => State.memRead_outOfRange (by omega), fun hin => ?_, fun v _ =>
    ⟨fun hout => State.memWrite_outOfRange (by omega), fun hin hm => ?_⟩⟩
  · rw [State.memRead_inRange (by omega), Memory.readBytes_eq_sum]
    rfl
  · exact ⟨s.setMem (s.mem.writeBytes addr n v), State.memWrite_inRange (by omega),
      fun i hi => Memory.read_writeBytes_inside hm addr v hi,
      fun x hx => Memory.read_writeBytes_outside hm v hx, rfl⟩

end Sys2Proof.Machine

/-! No operation changes MEM_SIZE (R35, R38), from one instruction to any number of steps. -/

namespace Sys2Proof.Machine

theorem completeLine_memSize {s t : State} (h : completeLine s = .next t) : t.memSize = s.memSize := by
  obtain ⟨_, _, _, _, rfl⟩ := completeLine_next h
  rfl

theorem raiseInRun_memSize {e : CoreError} {s t : State} (h : raiseInRun e s = .next t) :
    t.memSize = s.memSize := by
  obtain ⟨_, _, _, _, _, rfl⟩ := raiseInRun_next h
  rfl

/-- Whatever the run state, and for a program-text instruction among the host's calls too. -/
theorem exec_memSize {i : Instr} {s t : State} (h : exec i s = .next t) : t.memSize = s.memSize := by
  cases hi : i.textual with
  | true =>
    rcases exec_textual_cases s hi with ⟨s', hs, he⟩ | ⟨s', e, hs, he⟩ <;> rw [he] at h
    · exact (completeLine_memSize h).trans hs.memSize
    · exact (raiseInRun_memSize h).trans hs.memSize
  | false =>
    obtain ⟨u, he, hu⟩ := exec_port_cases s (show i.port = true by simp [Instr.port, hi])
    cases he.symm.trans h
    exact hu.memSize

theorem stepRun_memSize {lines : List SourceLine} {pc : Nat} {s t : State}
    (hr : s.run = .running lines pc) (h : stepRun lines pc s = .next t) : t.memSize = s.memSize := by
  rcases stepRun_next hr h with ⟨_, _, _, _, hsize, _⟩ | ⟨_, _, _, hsize, _⟩ <;> exact hsize

theorem serveHost_memSize {s t : State} (h : serveHost s = .next t) : t.memSize = s.memSize := by
  unfold serveHost at h
  split at h
  · cases h; rfl
  · exact (exec_memSize h).trans (State.setRequests_memSize s _)
  · cases h; rfl
  · cases h; rfl

theorem stepCore_memSize {s t : State} (h : stepCore s = .next t) : t.memSize = s.memSize := by
  rcases stepCore_cases s with ⟨lines, pc, hr, he⟩ | ⟨outcome, _, he⟩ | ⟨_, he⟩ <;> rw [he] at h
  · exact stepRun_memSize hr h
  · cases h; rfl
  · exact serveHost_memSize h

theorem step_memSize {s t : State} (h : step s = .next t) : t.memSize = s.memSize := by
  rcases step_cases s with ⟨g, o, rest, _, he⟩ | ⟨rest, _, he⟩ <;> rw [he] at h
  · cases h; rfl
  · exact (stepCore_memSize h).trans (State.setViewer_memSize s rest)

/-! ### What every step keeps, any number of steps keeps -/

theorem core_run_succ_next {s t : State} {k : Nat}
    (h : Host.Core.run Sys2Proof.core (k + 1) s = .next t) :
    ∃ u, step s = .next u ∧ Host.Core.run Sys2Proof.core k u = .next t := by
  have hc : Sys2Proof.core.step s = step s := rfl
  cases hs : step s with
  | next u => exact ⟨u, rfl, core_run_succ k hs ▸ h⟩
  | fault f => simp only [Host.Core.run, hc, hs] at h; cases h
  | refused f => simp only [Host.Core.run, hc, hs] at h; cases h

theorem core_run_keeps {P : State → Prop} (hstep : ∀ {s t}, step s = .next t → P s → P t) {k : Nat}
    {s t : State} (h : Host.Core.run Sys2Proof.core k s = .next t) (hs : P s) : P t := by
  induction k generalizing s with
  | zero => cases h; exact hs
  | succ k ih =>
    obtain ⟨u, hu, hrun⟩ := core_run_succ_next h
    exact ih hrun (hstep hu hs)

theorem core_run_memSize {k : Nat} {s t : State} (h : Host.Core.run Sys2Proof.core k s = .next t) :
    t.memSize = s.memSize :=
  core_run_keeps (P := fun u => u.memSize = s.memSize) (fun hstep hs => (step_memSize hstep).trans hs)
    h rfl

end Sys2Proof.Machine

/-! The state after construction (R35). -/

namespace Sys2Proof.Machine

/-- The addresses are filled from 0 up, so a byte below the size is written once. -/
theorem Memory.read_ofInit (init : Nat → U8) {n a : Nat} (ha : a < n) :
    (Memory.ofInit init n).read a = init a := by
  induction n with
  | zero => omega
  | succ n ih =>
    rw [Memory.ofInit, Memory.read_write (Memory.ofInit_wf init n)]
    split <;> rename_i hn
    · rw [hn]
    · exact ih (by omega)

@[simp] theorem State.construct_getReg (size : Nat) (init : Nat → U8) (r : Reg) :
    (State.construct size init).getReg r = 0 := RegFile.zero_get r

theorem State.construct_byteAt {size a : Nat} (init : Nat → U8) (ha : a < size) :
    (State.construct size init).byteAt a = init a := Memory.read_ofInit init ha

/-- Settles O11: the fields of the constructed state, and MEM_SIZE kept by every step of every run from
it, whatever waits at the ports. -/
theorem constructionLeavesTheStatedState : Obligations.ConstructionLeavesTheStatedState := by
  intro size init
  refine ⟨State.construct_getReg size init, fun a ha => State.construct_byteAt init ha,
    State.construct_memSize size init, fun requests viewer k t hrun => ?_, State.construct_run size init⟩
  simpa using core_run_memSize hrun

end Sys2Proof.Machine

/-! Names outside the eight (R23), at the register port and as the destination of a line. -/

namespace Sys2Proof

theorem destReg_unknown {t : Text} (h : NoRegister t) : destReg t = .error (.unknownRegister t) := by
  simp [destReg, Reg.ofName?_eq_none.2 h]

/-- The destination is judged first: no `src` hides its error (R103). -/
theorem decodeOp2_unknownDest (make : Reg → Operand → Instr) {dest : Text} (src : Text)
    (h : NoRegister dest) : decodeOp2 make dest src = .raises (.unknownRegister dest) := by
  simp [decodeOp2, destReg_unknown h]

theorem decodeDest1_unknownDest (make : Reg → Instr) {dest : Text} (h : NoRegister dest) :
    decodeDest1 make dest = .raises (.unknownRegister dest) := by
  simp [decodeDest1, destReg_unknown h]

namespace Machine

theorem execPortGet_unknown {name : Text} (h : NoRegister name) (s : State) :
    execPortGet name s = .next (s.answer (.failed (.unknownRegister name))) := by
  simp [execPortGet, Reg.ofName?_eq_none.2 h]

/-- Every register-port call but `get` is a `registerOp`, which looks the name up before all else. -/
theorem next_registerOp_unknown {name : Text} (h : NoRegister name) (f : U32 → Except CoreError U32)
    (s : State) : (.next (registerOp name f s) : Host.Outcome State Fault Refusal) =
      .next (s.answer (.failed (.unknownRegister name))) :=
  congrArg _ (registerOp_unknown h f s)

/-- Settles O52: the lookup fails first, at the port in `registerOp` and `get`, and in a line at the
destination token, before the source is looked at. -/
theorem unknownNamesRaiseUnknownRegister : Obligations.UnknownNamesRaiseUnknownRegister := by
  refine ⟨fun name hname s v b => ⟨?_, fun line src hline => ?_⟩, fun r => by cases r <;> decide⟩
  · have hop f := next_registerOp_unknown hname f s
    simp only [List.forall_mem_cons]
    exact ⟨execPortGet_unknown hname s, hop _, hop _, hop _, hop _, hop _, hop _, hop _, hop _, hop _,
      hop _, hop _, hop _, nofun⟩
  · simp only [List.mem_cons, List.not_mem_nil, or_false] at hline
    rcases hline with h | h | h | h
    · exact (decode_of_tokens (o := .mov) h (by decide)).trans (decodeOp2_unknownDest .mov src hname)
    · exact (decode_of_tokens (o := .add) h (by decide)).trans (decodeOp2_unknownDest .add src hname)
    · exact (decode_of_tokens (o := .sub) h (by decide)).trans (decodeOp2_unknownDest .sub src hname)
    · exact (decode_of_tokens (o := .pop) h (by decide)).trans (decodeDest1_unknownDest .pop hname)

end Machine

end Sys2Proof

/-! The memory ports (R43 to R53): what a call does in range and out of range, for every width, and which
bytes a read sees after a write. -/

namespace Sys2Proof.Machine

/-! ### One call, in range and out of range -/

theorem readPort_inRange {s : State} {a n : Nat} (f : Nat → PortResult) (h : a + n ≤ s.memSize) :
    readPort a n f s = s.answer (f (s.mem.readBytes a n)) := by
  rw [readPort, readAnswer, State.memRead_inRange h]

theorem readPort_outOfRange {s : State} {a n : Nat} (f : Nat → PortResult) (h : s.memSize < a + n) :
    readPort a n f s = s.answer (.failed (.outOfBounds a)) := by
  rw [readPort, readAnswer, State.memRead_outOfRange h]

/-- What a write of `n` bytes in range leaves: the bytes in memory and the answer (R45, R47, R49). -/
def State.stored (s : State) (a n v : Nat) : State :=
  (s.setMem (s.mem.writeBytes a n v)).answer .completed

theorem writePort_inRange {s : State} {a n : Nat} (v : Nat) (h : a + n ≤ s.memSize) :
    writePort a n v s = s.stored a n v := by
  rw [writePort, State.memWrite_inRange h, State.stored]

theorem writePort_outOfRange {s : State} {a n : Nat} (v : Nat) (h : s.memSize < a + n) :
    writePort a n v s = s.answer (.failed (.outOfBounds a)) := by
  rw [writePort, State.memWrite_outOfRange h]

/-- Every memory port answers with a next state. -/
theorem next_congr {s t : State} (h : s = t) :
    (.next s : Host.Outcome State Fault Refusal) = .next t := congrArg _ h

/-! ### Two and four bytes read -/

theorem Memory.readBytes_two (m : Memory) (a : Nat) :
    m.readBytes a 2 = (m.read a).toNat + (m.read (a + 1)).toNat * 2 ^ 8 := by
  simp [Memory.readBytes_eq_sum, Finset.sum_range_succ]

theorem Memory.readBytes_four (m : Memory) (a : Nat) :
    m.readBytes a 4 = (m.read a).toNat + (m.read (a + 1)).toNat * 2 ^ 8 +
      (m.read (a + 2)).toNat * 2 ^ 16 + (m.read (a + 3)).toNat * 2 ^ 24 := by
  simp [Memory.readBytes_eq_sum, Finset.sum_range_succ]

/-- Settles O56: the ports' bounds are those of the memory operations, and the value is the sum of the
bytes read. -/
theorem readPortsAnswerLittleEndian : Obligations.ReadPortsAnswerLittleEndian := by
  intro s a
  have hin {n} f (h : a + n ≤ s.memSize) := next_congr (readPort_inRange f h)
  have hout {k} f (h : s.memSize ≤ a + k) :=
    next_congr (readPort_outOfRange (n := k + 1) f (Nat.lt_succ_of_le h))
  refine ⟨fun h => (hin _ h).trans ?_, fun h => hout _ h,
    fun h => (hin _ h).trans ?_, fun h => hout _ h,
    fun h => (hin _ h).trans ?_, fun h => hout _ h⟩
  · simp [State.byteAt]
  · rw [Memory.readBytes_two]; rfl
  · rw [Memory.readBytes_four]; rfl

/-! ### Reads after a write -/

/-- Bytes k to k + j - 1 of a value written are read back as those of the value, whatever the widths of
the write and the read (R43). -/
theorem Memory.readBytes_writeBytes_inside {m : Memory} (hm : m.wf) (a v : Nat) {n k j : Nat}
    (h : k + j ≤ n) : (m.writeBytes a n v).readBytes (a + k) j = v / 256 ^ k % 256 ^ j := by
  induction j generalizing k with
  | zero => simp [Memory.readBytes, Nat.mod_one]
  | succ j ih =>
    have hbyte : ((m.writeBytes a n v).read (a + k)).toNat = v / 256 ^ k % 256 := by
      simp [Memory.read_writeBytes_inside hm a v (show k < n by omega), two_pow_eight_mul]
    have hrest : (m.writeBytes a n v).readBytes (a + k + 1) j = v / 256 ^ k / 256 % 256 ^ j := by
      rw [Nat.add_assoc, ih (by omega), Nat.div_div_eq_div_mul, pow_succ]
    rw [Memory.readBytes, hbyte, hrest, pow_succ', Nat.mod_mul]

/-- Bytes k to k + j - 1 of a word are its bits 8k to 8k + 8j - 1 (R42). -/
theorem ofNat_bytes_toNat {w : Nat} (v : BitVec w) (k j : Nat) :
    BitVec.ofNat (8 * j) (v.toNat / 256 ^ k % 256 ^ j) = (v >>> (8 * k)).setWidth (8 * j) := by
  apply BitVec.eq_of_toNat_eq
  simp [← two_pow_eight_mul, Nat.shiftRight_eq_div_pow]

section
variable {s : State} (hm : s.mem.wf) (a : Nat) {n w : Nat} (v : BitVec w)
include hm

theorem State.stored_byteAt_inside {i : Nat} (hi : i < n) :
    (s.stored a n v.toNat).byteAt (a + i) = (v >>> (8 * i)).setWidth 8 := by
  apply BitVec.eq_of_toNat_eq
  simp [State.stored, Memory.read_writeBytes_inside hm a _ hi, Nat.shiftRight_eq_div_pow]

theorem State.stored_byteAt_outside {x : Nat} (hx : x < a ∨ a + n ≤ x) :
    (s.stored a n v.toNat).byteAt x = s.byteAt x :=
  Memory.read_writeBytes_outside hm v.toNat hx

/-- A read inside the bytes written answers the bits written there (R43). -/
theorem readPort_stored_inside (k : Nat) {j : Nat} (f : BitVec (8 * j) → PortResult) (hk : k + j ≤ n)
    (h : a + n ≤ s.memSize) :
    readPort (a + k) j (fun x => f (BitVec.ofNat (8 * j) x)) (s.stored a n v.toNat) =
      (s.stored a n v.toNat).answer (f ((v >>> (8 * k)).setWidth (8 * j))) := by
  have hin : a + k + j ≤ (s.stored a n v.toNat).memSize := by
    simp only [State.stored, State.answer_memSize, State.setMem_memSize]
    omega
  rw [readPort_inRange _ hin, ← ofNat_bytes_toNat, ← Memory.readBytes_writeBytes_inside hm a _ hk]
  rfl

end

/-- A write read back whole (R45, R47, R49). -/
theorem readPort_stored_same {s : State} (hm : s.mem.wf) (a : Nat) {n : Nat} (v : BitVec (8 * n))
    (f : BitVec (8 * n) → PortResult) (h : a + n ≤ s.memSize) :
    readPort a n (fun x => f (BitVec.ofNat (8 * n) x)) (s.stored a n v.toNat) =
      (s.stored a n v.toNat).answer (f v) := by
  simpa using readPort_stored_inside hm a v 0 f (Nat.zero_add n).le h

/-- Settles O57: a write in range leaves `State.stored`, which is judged byte by byte, and the read of
the same width finds the whole value there. -/
theorem writePortsStoreLittleEndian : Obligations.WritePortsStoreLittleEndian := by
  intro s a hm
  have hin {n} v (h : a + n ≤ s.memSize) := next_congr (writePort_inRange v h)
  have hout {k} v (h : s.memSize ≤ a + k) :=
    next_congr (writePort_outOfRange (n := k + 1) v (Nat.lt_succ_of_le h))
  have hbyte {n w i} (v : BitVec w) (hi : i < n) := State.stored_byteAt_inside hm a v hi
  have hother {n w x} (v : BitVec w) (hx : x < a ∨ a + n ≤ x) := State.stored_byteAt_outside hm a v hx
  have hread {n} (v : BitVec (8 * n)) f (h : a + n ≤ s.memSize) :=
    next_congr (readPort_stored_same hm a v f h)
  refine ⟨fun v => ⟨fun h => ?_, fun h => hout _ h⟩, fun v => ⟨fun h => ?_, fun h => hout _ h⟩,
    fun v => ⟨fun h => ?_, fun h => hout _ h⟩⟩
  · refine ⟨s.stored a 1 v.toNat, hin _ h, ?_, fun x hx => hother v (by omega), rfl,
      hread (n := 1) v .u8 h⟩
    simpa using hbyte v (show 0 < 1 by decide)
  · refine ⟨s.stored a 2 v.toNat, hin _ h, ?_, hbyte v (by decide), fun x hx => hother v hx, rfl,
      hread (n := 2) v .u16 h⟩
    simpa using hbyte v (show 0 < 2 by decide)
  · exact ⟨s.stored a 4 v.toNat, hin _ h, fun i hi => hbyte v hi, fun x hx => hother v hx, rfl,
      hread (n := 4) v .u32 h⟩

/-- An answered byte is the one memory holds, and its address is in range. -/
theorem readByte_answered {s : State} {a : Nat} {b : U8}
    (h : exec (.portReadByte a) s = .next (s.answer (.u8 b))) : a < s.memSize ∧ b = s.byteAt a := by
  obtain ⟨hin, hout, -⟩ := readPortsAnswerLittleEndian s a
  rcases Nat.lt_or_ge a s.memSize with ha | ha
  · rw [hin ha] at h
    exact ⟨ha, by simpa [State.answer] using h.symm⟩
  · rw [hout ha] at h
    simp [State.answer] at h

/-- Settles O58: the reads look inside the four bytes that the dword wrote, and an operand in memory is
the byte at its address. -/
theorem mixedWidthsSeeTheSameBytes : Obligations.MixedWidthsSeeTheSameBytes := by
  refine ⟨fun s a v hm h => ?_, fun s a b hread => ?_⟩
  · have hread k {j} f (hk : k + j ≤ 4) :=
      next_congr (readPort_stored_inside hm a v k (j := j) f hk h)
    refine ⟨s.stored a 4 v.toNat, next_congr (writePort_inRange _ h),
      fun i hi => hread i (j := 1) .u8 hi, ?_, hread 2 (j := 2) .u16 (by decide)⟩
    have hlow := hread 0 (j := 2) .u16 (by decide)
    rwa [Nat.mul_zero, BitVec.ushiftRight_zero] at hlow
  · obtain ⟨ha, rfl⟩ := readByte_answered hread
    exact resolve_mem_inRange ha

/-- Settles O59: a segment-relative accessor is the flat one at the linear address, whose reads O56
gives and whose writes are those of every port. -/
theorem segmentPortsAreFlatAtTheLinearAddress : Obligations.SegmentPortsAreFlatAtTheLinearAddress := by
  rintro s g o _ rfl
  obtain ⟨hbyte, hbyteOut, hword, hwordOut, hdword, hdwordOut⟩ :=
    readPortsAnswerLittleEndian s (g * 16 + o)
  have hin {n} v (h : g * 16 + o + n ≤ s.memSize) := next_congr (writePort_inRange v h)
  have hout {k} v (h : s.memSize ≤ g * 16 + o + k) :=
    next_congr (writePort_outOfRange (n := k + 1) v (Nat.lt_succ_of_le h))
  exact ⟨fun h => ⟨⟨_, hbyte h, hbyte h, rfl⟩, fun v => ⟨_, hin _ h, hin _ h, rfl⟩⟩,
    fun h => ⟨hbyteOut h, fun v => hout _ h⟩,
    fun h => ⟨⟨_, hword h, hword h, rfl⟩, fun v => ⟨_, hin _ h, hin _ h, rfl⟩⟩,
    fun h => ⟨hwordOut h, fun v => hout _ h⟩,
    fun h => ⟨⟨_, hdword h, hdword h, rfl⟩, fun v => ⟨_, hin _ h, hin _ h, rfl⟩⟩,
    fun h => ⟨hdwordOut h, fun v => hout _ h⟩⟩

end Sys2Proof.Machine

/-! Whitespace, tokens and physical lines (R71, R72). -/

namespace Sys2Proof

/-! ### Whitespace and tokens -/

theorem isSpace_iff (c : Char) : isSpace c = true ↔ c.toNat ∈ [0x09, 0x0A, 0x0B, 0x0C, 0x0D, 0x20] := by
  simp [isSpace, ← Char.toNat_inj, or_assoc]

@[simp] theorem tokens_nil : tokens [] = [] := rfl

/-- A text without whitespace is one token. -/
theorem tokens_of_noSpace {t : Text} (hne : t ≠ []) (ht : ∀ c ∈ t, isSpace c = false) :
    tokens t = [t] := by
  have h := tokensFrom_noSpace ht [] []
  rwa [List.append_nil, List.append_nil, tokensFrom_end, if_neg (by simpa using hne),
    List.reverse_reverse] at h

theorem tokens_append_space {c : Char} (hc : isSpace c = true) (a b : Text) :
    tokens (a ++ c :: b) = tokens a ++ tokens b := tokensFrom_append_space hc [] a b

/-- Settles O2: a text without whitespace joins one token, and a whitespace character ends it. -/
theorem tokensSplitAtWhitespace : Obligations.TokensSplitAtWhitespace :=
  ⟨isSpace_iff, by decide, tokens_nil, fun _ hne ht => tokens_of_noSpace hne ht,
    fun a b _ hc => tokens_append_space hc a b⟩

/-! ### Stripping -/

theorem exists_append_dropWhile (p : Char → Bool) (t : Text) :
    ∃ pre, t = pre ++ t.dropWhile p ∧ ∀ c ∈ pre, p c = true :=
  ⟨t.takeWhile p, List.takeWhile_append_dropWhile.symm, fun _ hc => List.mem_takeWhile_imp hc⟩

/-- What `strip` drops: whitespace before and whitespace after. -/
theorem exists_append_strip (t : Text) :
    ∃ pre post, t = pre ++ strip t ++ post ∧ ∀ c ∈ pre ++ post, isSpace c = true := by
  obtain ⟨pre, hpre, hpreSpace⟩ := exists_append_dropWhile isSpace t
  obtain ⟨post, hpost, hpostSpace⟩ := exists_append_dropWhile isSpace (t.dropWhile isSpace).reverse
  have hrest : t.dropWhile isSpace = strip t ++ post.reverse := by
    simpa [strip] using congrArg List.reverse hpost
  refine ⟨pre, post.reverse, ?_, fun c hc => ?_⟩
  · rw [List.append_assoc, ← hrest, ← hpre]
  · rcases List.mem_append.1 hc with hc | hc
    · exact hpreSpace c hc
    · exact hpostSpace c (List.mem_reverse.1 hc)

theorem strip_append_space {c : Char} (hc : isSpace c = true) (t : Text) :
    strip (t ++ [c]) = strip t := by
  cases h : t.dropWhile isSpace with
  | nil => simp [strip, List.dropWhile_append, h, hc]
  | cons d ds => simp [strip, List.dropWhile_append, h, hc]

/-! ### Physical lines -/

theorem splitLinesFrom_of_noNewline {p : Text} (hp : '\n' ∉ p) (acc : Text) :
    splitLinesFrom acc p = [acc.reverse ++ p] := by
  induction p generalizing acc with
  | nil => simp [splitLinesFrom]
  | cons c cs ih =>
    obtain ⟨hc, hcs⟩ := not_or.1 (mt List.mem_cons.2 hp)
    simp [splitLinesFrom, Ne.symm hc, ih hcs]

theorem splitLinesFrom_append_newline (acc a b : Text) :
    splitLinesFrom acc (a ++ '\n' :: b) = splitLinesFrom acc a ++ splitLinesFrom [] b := by
  induction a generalizing acc with
  | nil => simp [splitLinesFrom]
  | cons c cs ih =>
    by_cases hc : c = '\n' <;> simp [splitLinesFrom, hc, ih]

/-- Physical lines joined by LF are split into the same lines. -/
theorem splitLinesFrom_intercalate {phys : List Text} (hne : phys ≠ []) (h : ∀ p ∈ phys, '\n' ∉ p) :
    splitLinesFrom [] (List.intercalate ['\n'] phys) = phys := by
  induction phys with
  | nil => contradiction
  | cons p ps ih =>
    have hp : splitLinesFrom [] p = [p] := splitLinesFrom_of_noNewline (h p (by simp)) []
    cases ps with
    | nil => simpa using hp
    | cons q qs =>
      have hqs := ih (by simp) fun r hr => h r (List.mem_cons_of_mem _ hr)
      rw [List.intercalate_cons_cons, List.append_assoc, List.singleton_append,
        splitLinesFrom_append_newline, hp, hqs, List.singleton_append]

theorem numberLines_eq_filterMap (n : Nat) (ts : List Text) :
    numberLines n ts =
      (ts.zipIdx n).filterMap (fun p => if strip p.1 = [] then none else some ⟨strip p.1, p.2⟩) := by
  induction ts generalizing n with
  | nil => rfl
  | cons t ts ih => by_cases ht : strip t = [] <;> simp [numberLines, ht, ih]

/-- Numbering sees the stripped lines only. -/
theorem numberLines_congr {ts us : List Text} (h : ts.map strip = us.map strip) (n : Nat) :
    numberLines n ts = numberLines n us := by
  induction ts generalizing us n with
  | nil => rw [List.map_eq_nil_iff.1 h.symm]
  | cons t ts ih =>
    cases us with
    | nil => simp at h
    | cons u us =>
      obtain ⟨hstrip, hrest⟩ := List.cons.inj h
      rw [numberLines, numberLines, hstrip, ih hrest]

/-- A CR at the end of a text belongs to its last line, and is stripped from it. -/
theorem map_strip_splitLinesFrom_append_cr (acc t : Text) :
    (splitLinesFrom acc (t ++ ['\r'])).map strip = (splitLinesFrom acc t).map strip := by
  induction t generalizing acc with
  | nil => simp [splitLinesFrom, strip_append_space (show isSpace '\r' = true by decide)]
  | cons c cs ih => by_cases hc : c = '\n' <;> simp [splitLinesFrom, hc, ih]

theorem programLines_crlf (a b : Text) :
    programLines (a ++ '\r' :: '\n' :: b) = programLines (a ++ '\n' :: b) := by
  refine numberLines_congr ?_ 1
  rw [List.append_cons, splitLinesFrom_append_newline, splitLinesFrom_append_newline, List.map_append,
    List.map_append, map_strip_splitLinesFrom_append_cr]

/-- Settles O1: what `strip` drops is whitespace, splitting undoes the joining of lines by LF, and a CR is
stripped before an LF and separates tokens elsewhere. -/
theorem programTextSplitsIntoLines : Obligations.ProgramTextSplitsIntoLines := by
  refine ⟨fun t => ?_, fun phys hne h => ?_, programLines_crlf,
    tokens_append_space (by decide)⟩
  · obtain ⟨pre, post, ht, hspace⟩ := exists_append_strip t
    exact ⟨pre, post, ht, hspace, or_iff_not_imp_left.2 strip_stripped⟩
  · rw [programLines, splitLinesFrom_intercalate hne h, numberLines_eq_filterMap]

end Sys2Proof

/-! Hex literals (R76): the reader against the grammar. -/

namespace Sys2Proof

/-! ### Digits -/

/-- In a list of the sixteen digits each is read as its place. -/
theorem hexDigitValue?_of_getElem? {digits : Text} (hlen : digits.length = 16)
    (hread : ∀ d < 16, digits[d]?.bind hexDigitValue? = some d) {c : Char} {d : Nat}
    (h : digits[d]? = some c) : hexDigitValue? c = some d := by
  have hd := hread d (hlen ▸ (List.getElem?_eq_some_iff.1 h).1)
  rwa [h, Option.bind_some] at hd

/-- The value read of a HEXDIGIT: every code that reads as one is below 103. -/
theorem hexDigitValue?_iff (c : Char) (d : Nat) : hexDigitValue? c = some d ↔ HexDigit c d := by
  have hread : ∀ k < 103, ∀ e ∈ hexDigitValue? (Char.ofNat k),
      "0123456789abcdef".toList[e]? = some (Char.ofNat k) ∨
        "0123456789ABCDEF".toList[e]? = some (Char.ofNat k) := by decide
  constructor
  · intro h
    have hc : c.toNat < 103 := by
      by_contra hc
      simp [hexDigitValue?, show ¬ c.toNat ≤ 57 by omega, show ¬ c.toNat ≤ 102 by omega,
        show ¬ c.toNat ≤ 70 by omega] at h
    have hchar := hread c.toNat hc d
    rw [Char.ofNat_toNat] at hchar
    exact hchar h
  · rintro (h | h)
    · exact hexDigitValue?_of_getElem? (by decide) (by decide) h
    · exact hexDigitValue?_of_getElem? (by decide) (by decide) h

theorem not_hexDigit {c : Char} (h : hexDigitValue? c = none) (d : Nat) : ¬ HexDigit c d := by
  rw [← hexDigitValue?_iff, h]
  nofun

/-- The last digit is the least significant one. -/
theorem hexDigitsFrom_append_digit (acc : Nat) (ds : Text) (c : Char) :
    hexDigitsFrom acc (ds ++ [c]) =
      (hexDigitsFrom acc ds).bind (fun m => (hexDigitValue? c).map (16 * m + ·)) := by
  induction ds generalizing acc with
  | nil => cases hc : hexDigitValue? c <;> simp [hexDigitsFrom, hc]
  | cons e es ih => cases he : hexDigitValue? e <;> simp [hexDigitsFrom, he, ih]

theorem hexDigits?_of_ne_nil {t : Text} (h : t ≠ []) : hexDigits? t = hexDigitsFrom 0 t := by
  cases t with
  | nil => contradiction
  | cons c cs => rfl

theorem HexDigits.ne_nil {t : Text} {n : Nat} (h : HexDigits t n) : t ≠ [] := by cases h <;> simp

theorem hexDigitsFrom_of_hexDigits {t : Text} {n : Nat} (h : HexDigits t n) :
    hexDigitsFrom 0 t = some n := by
  induction h with
  | single h => simp [hexDigitsFrom, (hexDigitValue?_iff _ _).2 h]
  | more _ h ih => simp [hexDigitsFrom_append_digit, ih, (hexDigitValue?_iff _ _).2 h]

theorem hexDigits_of_hexDigitsFrom {t : Text} {n : Nat} (hne : t ≠ []) (h : hexDigitsFrom 0 t = some n) :
    HexDigits t n := by
  induction t using List.reverseRecOn generalizing n with
  | nil => contradiction
  | append_singleton ds c ih =>
    rw [hexDigitsFrom_append_digit] at h
    obtain ⟨m, hm, h⟩ := Option.bind_eq_some_iff.1 h
    obtain ⟨d, hd, rfl⟩ := Option.map_eq_some_iff.1 h
    have hdigit : HexDigit c d := (hexDigitValue?_iff c d).1 hd
    by_cases hds : ds = []
    · subst hds
      cases hm
      simpa using HexDigits.single hdigit
    · exact .more (ih hds hm) hdigit

theorem hexDigits?_iff (t : Text) (n : Nat) : hexDigits? t = some n ↔ HexDigits t n := by
  constructor
  · intro h
    have hne : t ≠ [] := by rintro rfl; cases h
    exact hexDigits_of_hexDigitsFrom hne (hexDigits?_of_ne_nil hne ▸ h)
  · intro h
    exact (hexDigits?_of_ne_nil h.ne_nil).trans (hexDigitsFrom_of_hexDigits h)

theorem HexDigits.digit_of_mem {t : Text} {n : Nat} (h : HexDigits t n) {c : Char} (hc : c ∈ t) :
    ∃ d, HexDigit c d := by
  induction h with
  | single h => exact ⟨_, List.mem_singleton.1 hc ▸ h⟩
  | more _ h ih =>
    rcases List.mem_append.1 hc with hc | hc
    · exact ih hc
    · exact ⟨_, List.mem_singleton.1 hc ▸ h⟩

/-! ### Literals -/

/-- A text that begins with `0x` or `0X` is no row of digits: the letter is none. -/
theorem not_hexDigits_of_0x {ds : Text} {n : Nat} :
    ¬ HexDigits ('0' :: 'x' :: ds) n ∧ ¬ HexDigits ('0' :: 'X' :: ds) n := by
  constructor <;> intro h
  · obtain ⟨d, hd⟩ := h.digit_of_mem (c := 'x') (by simp)
    exact not_hexDigit (by decide) d hd
  · obtain ⟨d, hd⟩ := h.digit_of_mem (c := 'X') (by simp)
    exact not_hexDigit (by decide) d hd

/-- The reader follows the grammar: after `0x` or `0X` come the digits, and without them all are digits. -/
theorem hexLiteral?_iff (t : Text) (n : Nat) : hexLiteral? t = some n ↔ HexLiteral t n := by
  unfold hexLiteral? HexLiteral
  split
  · simp [hexDigits?_iff, not_hexDigits_of_0x]
  · simp [hexDigits?_iff, not_hexDigits_of_0x]
  · next hx hX =>
    rw [hexDigits?_iff]
    refine ⟨.inl, ?_⟩
    rintro (h | ⟨ds, rfl | rfl, _⟩)
    · exact h
    · exact absurd rfl (hx ds)
    · exact absurd rfl (hX ds)

/-- Settles O3: the reader is the grammar's, and is run on the excluded texts. -/
theorem hexLiteralGrammarIsFollowed : Obligations.HexLiteralGrammarIsFollowed :=
  ⟨hexLiteral?_iff, by decide⟩

/-- The characters of a literal are digits and the letter of `0x` or `0X`. -/
theorem HexLiteral.char_of_mem {t : Text} {n : Nat} (h : HexLiteral t n) {c : Char} (hc : c ∈ t) :
    (∃ d, HexDigit c d) ∨ c ∈ ['x', 'X'] := by
  rcases h with h | ⟨ds, rfl | rfl, h⟩
  · exact .inl (h.digit_of_mem hc)
  all_goals
    simp only [List.mem_cons] at hc
    obtain rfl | rfl | hds := hc
    · exact .inl ⟨0, .inl rfl⟩
    · simp
    · exact .inl (h.digit_of_mem hds)

theorem HexLiteral.ne_nil {t : Text} {n : Nat} (h : HexLiteral t n) : t ≠ [] := by
  rcases h with h | ⟨ds, rfl | rfl, _⟩
  · exact h.ne_nil
  · simp
  · simp

end Sys2Proof

/-! Operand tokens (R75, R78, R86): what begins and spells each kind, and how it is classified. -/

namespace Sys2Proof

/-! ### The three kinds are apart -/

@[simp] theorem Reg.name_head? (r : Reg) : r.name.head? = some 'e' := by cases r <;> rfl

theorem HexLiteral.head?_ne_bracket {t : Text} {n : Nat} (h : HexLiteral t n) : t.head? ≠ some '[' := by
  intro hhead
  rcases h.char_of_mem (List.mem_of_head? hhead) with ⟨d, hd⟩ | hletter
  · exact not_hexDigit (by decide) d hd
  · exact absurd hletter (by decide)

theorem Reg.hexLiteral?_name (r : Reg) : hexLiteral? r.name = none := by cases r <;> decide

theorem Reg.name_not_hexLiteral (r : Reg) (n : Nat) : ¬ HexLiteral r.name n := by
  rw [← hexLiteral?_iff, Reg.hexLiteral?_name]
  nofun

theorem HexLiteral.ofName?_eq_none {t : Text} {n : Nat} (h : HexLiteral t n) : Reg.ofName? t = none :=
  Reg.ofName?_eq_none.2 fun r hr => r.name_not_hexLiteral n (hr ▸ h)

theorem Reg.name_has_nonHexLetter (r : Reg) : ∃ c ∈ r.name, c ∈ ['x', 's', 'p', 'i'] := by
  cases r <;> simp [Reg.name]

theorem not_hexDigit_nonHexLetter {c : Char} (hc : c ∈ ['x', 's', 'p', 'i']) (d : Nat) :
    ¬ HexDigit c d := by
  simp only [List.mem_cons, List.not_mem_nil, or_false] at hc
  rcases hc with rfl | rfl | rfl | rfl <;> exact not_hexDigit (by decide) d

/-- Settles O5: a letter of each name is no digit, and names and literals do not begin with a bracket. -/
theorem nameLiteralAndBracketAreApart : Obligations.NameLiteralAndBracketAreApart := by
  refine ⟨fun r => ?_, Reg.name_not_hexLiteral, fun t hopen _ => ⟨fun r hr => ?_, fun n hn => ?_⟩⟩
  · obtain ⟨c, hmem, hc⟩ := r.name_has_nonHexLetter
    exact ⟨c, hmem, hc, not_hexDigit_nonHexLetter hc⟩
  · rw [hr, Reg.name_head?] at hopen
    exact absurd hopen (by decide)
  · exact hn.head?_ne_bracket hopen

/-! ### Classification -/

theorem bracketInner?_eq_none {t : Text} (h : t.head? ≠ some '[') : bracketInner? t = none := by
  unfold bracketInner?
  split
  · exact absurd rfl h
  · rfl

theorem bracketInner?_bracketed (inner : Text) :
    bracketInner? ('[' :: (inner ++ [']'])) = some inner := by
  simp [bracketInner?]

theorem eq_bracketed_of_bracketInner? {t inner : Text} (h : bracketInner? t = some inner) :
    t = '[' :: (inner ++ [']']) := by
  unfold bracketInner? at h
  split at h
  · next rest =>
    obtain ⟨hclose, hinner⟩ := Option.ite_none_right_eq_some.1 h
    cases hinner
    rw [List.dropLast_append_getLast? _ hclose]
  · cases h

theorem classify_of_spelling {t : Text} {o : Operand} (h : OperandSpelling t o) : classify t = .ok o := by
  cases h with
  | imm h =>
    simp [classify, bracketInner?_eq_none h.head?_ne_bracket, h.ofName?_eq_none, (hexLiteral?_iff _ _).2 h]
  | reg r => simp [classify, bracketInner?_eq_none (t := r.name) (by simp)]
  | mem h => simp [classify, bracketInner?_bracketed, (hexLiteral?_iff _ _).2 h]

/-- All that classification can do: take the token by the grammar, or raise its one error (R183). -/
theorem classify_cases (t : Text) :
    (∃ o, OperandSpelling t o ∧ classify t = .ok o) ∨ classify t = .error (.invalidOperand t) := by
  suffices h : (∃ o, OperandSpelling t o) ∨ classify t = .error (.invalidOperand t) from
    h.imp_left fun ⟨o, ho⟩ => ⟨o, ho, classify_of_spelling ho⟩
  unfold classify
  cases hb : bracketInner? t with
  | some inner =>
    cases hl : hexLiteral? inner with
    | some a =>
      rw [eq_bracketed_of_bracketInner? hb]
      exact .inl ⟨_, .mem ((hexLiteral?_iff _ _).1 hl)⟩
    | none => exact .inr (by simp only [hl])
  | none =>
    cases hr : Reg.ofName? t with
    | some r =>
      rw [Reg.name_of_ofName? hr]
      exact .inl ⟨_, .reg r⟩
    | none =>
      cases hl : hexLiteral? t with
      | some n => exact .inl ⟨_, .imm ((hexLiteral?_iff _ _).1 hl)⟩
      | none => exact .inr rfl

theorem classify_eq_ok_iff (t : Text) (o : Operand) : classify t = .ok o ↔ OperandSpelling t o := by
  refine ⟨fun h => ?_, classify_of_spelling⟩
  rcases classify_cases t with ⟨o', ho', h'⟩ | h'
  · rw [h'] at h
    exact Except.ok.inj h ▸ ho'
  · rw [h'] at h
    cases h

theorem classify_of_noSpelling {t : Text} (h : ∀ o, ¬ OperandSpelling t o) :
    classify t = .error (.invalidOperand t) :=
  (classify_cases t).resolve_left fun ⟨o, ho, _⟩ => h o ho

/-- Settles O4: the three kinds of spelling exclude one another, so the order of R75 decides no case. -/
theorem classifyFollowsTheOperandGrammar : Obligations.ClassifyFollowsTheOperandGrammar :=
  fun t => ⟨classify_eq_ok_iff t, classify_of_noSpelling⟩

end Sys2Proof

/-! Decode (R82, R85, R103): the operand tokens of each format, the count of them, and illegal lines. -/

namespace Sys2Proof

/-! ### Operand tokens -/

@[simp] theorem destReg_name (r : Reg) : destReg r.name = .ok r := by simp [destReg]

theorem decodeOp2_of_spelling (make : Reg → Operand → Instr) (d : Reg) {src : Text} {o : Operand}
    (h : OperandSpelling src o) : decodeOp2 make d.name src = .instr (make d o) := by
  simp [decodeOp2, classify_of_spelling h]

theorem decodeOp2_noSpelling (make : Reg → Operand → Instr) (d : Reg) {src : Text}
    (h : ∀ o, ¬ OperandSpelling src o) : decodeOp2 make d.name src = .raises (.invalidOperand src) := by
  simp [decodeOp2, classify_of_noSpelling h]

theorem decodeSrc1_of_spelling (make : Operand → Instr) {src : Text} {o : Operand}
    (h : OperandSpelling src o) : decodeSrc1 make src = .instr (make o) := by
  simp [decodeSrc1, classify_of_spelling h]

theorem decodeSrc1_noSpelling (make : Operand → Instr) {src : Text}
    (h : ∀ o, ¬ OperandSpelling src o) : decodeSrc1 make src = .raises (.invalidOperand src) := by
  simp [decodeSrc1, classify_of_noSpelling h]

@[simp] theorem decodeDest1_name (make : Reg → Instr) (d : Reg) :
    decodeDest1 make d.name = .instr (make d) := by simp [decodeDest1]

/-! ### Opcodes -/

theorem decode_of_opcode {line : Text} {o : Opcode} {args : List Text}
    (h : tokens line = o.name :: args) : decode line = decodeOperands o.name o args :=
  decode_of_tokens h o.ofToken?_name

/-- How many operand tokens follow an opcode (R73, R80). -/
def Opcode.operandCount : Opcode → Nat
  | .mov | .add | .sub => 2
  | .push | .pop => 1

theorem decodeOperands_wrongCount (op : Text) {o : Opcode} {args : List Text}
    (h : args.length ≠ o.operandCount) : decodeOperands op o args = .raises (.invalidOperands op) := by
  unfold decodeOperands
  split
  case h_1 | h_2 | h_3 | h_4 | h_5 => exact absurd rfl h
  all_goals rfl

/-- The opcode has format OP2 and makes the instruction `make` (R73, R80). -/
structure Opcode.Op2 (o : Opcode) (make : Reg → Operand → Instr) : Prop where
  count : o.operandCount = 2
  operands : ∀ op dest src, decodeOperands op o [dest, src] = decodeOp2 make dest src

theorem Opcode.mov_op2 : Opcode.mov.Op2 .mov := ⟨rfl, fun _ _ _ => rfl⟩
theorem Opcode.add_op2 : Opcode.add.Op2 .add := ⟨rfl, fun _ _ _ => rfl⟩
theorem Opcode.sub_op2 : Opcode.sub.Op2 .sub := ⟨rfl, fun _ _ _ => rfl⟩

theorem exists_op2_of_mem {op : Text} (h : op ∈ ["mov".toList, "add".toList, "sub".toList]) :
    ∃ (o : Opcode) (make : Reg → Operand → Instr), op = o.name ∧ o.Op2 make := by
  simp only [List.mem_cons, List.not_mem_nil, or_false] at h
  rcases h with rfl | rfl | rfl
  · exact ⟨.mov, .mov, rfl, Opcode.mov_op2⟩
  · exact ⟨.add, .add, rfl, Opcode.add_op2⟩
  · exact ⟨.sub, .sub, rfl, Opcode.sub_op2⟩

theorem exists_oneOperand_of_mem {op : Text} (h : op ∈ ["push".toList, "pop".toList]) :
    ∃ o : Opcode, op = o.name ∧ o.operandCount = 1 := by
  simp only [List.mem_cons, List.not_mem_nil, or_false] at h
  rcases h with rfl | rfl
  · exact ⟨.push, rfl, rfl⟩
  · exact ⟨.pop, rfl, rfl⟩

theorem ofToken?_eq_none_of_notMem {op : Text}
    (h : op ∉ ["mov".toList, "add".toList, "sub".toList, "push".toList, "pop".toList]) :
    Opcode.ofToken? op = none := by
  refine Opcode.ofToken?_eq_none.2 ?_
  rintro o rfl
  cases o <;> exact h (by decide)

/-! ### Illegal lines -/

theorem decode_wrongCount {line : Text} {o : Opcode} {args : List Text}
    (h : tokens line = o.name :: args) (hcount : args.length ≠ o.operandCount) :
    decode line = .raises (.invalidOperands o.name) :=
  (decode_of_opcode h).trans (decodeOperands_wrongCount _ hcount)

theorem decode_op2 {line dest src : Text} {o : Opcode} {make : Reg → Operand → Instr} (ho : o.Op2 make)
    (h : tokens line = [o.name, dest, src]) : decode line = decodeOp2 make dest src :=
  (decode_of_opcode h).trans (ho.operands _ dest src)

theorem decode_push {line src : Text} (h : tokens line = [Opcode.push.name, src]) :
    decode line = decodeSrc1 .push src := decode_of_opcode h

theorem decode_pop {line dest : Text} (h : tokens line = [Opcode.pop.name, dest]) :
    decode line = decodeDest1 .pop dest := decode_of_opcode h

/-- A step at a line that raises at decode ends the run there, and changes nothing else (R108). -/
theorem Machine.step_of_decode_raises {s : Machine.State} {lines : List SourceLine} {pc : Nat}
    {line : SourceLine} {e : CoreError} (hv : s.viewer = []) (hat : s.atLine lines pc line)
    (hd : decode line.text = .raises e) : Machine.step s = .next (s.faultedAt e pc line) := by
  obtain ⟨hrun, hline⟩ := hat
  rw [Machine.step_noViewer hv, Machine.stepCore_running hrun]
  simp only [Machine.stepRun, hline, Machine.runLine, hd]
  exact Machine.raiseInRun_running hrun hline

/-- Settles O6: the opcode is judged first, then the count, the destination and the source, and the
first of them that fails names the error. -/
theorem illegalLinesRaise : Obligations.IllegalLinesRaise := by
  refine ⟨fun line op args hline => ⟨fun hop => ?_, fun hop hcount => ?_, fun hop hcount => ?_,
    fun hop d src hargs hd => ?_, fun hop d hargs hd => ?_, fun hop r src hargs hsrc => ?_,
    fun hop src hargs hsrc => ?_⟩, fun s lines pc line hv hat htext => ?_⟩
  · exact decode_unknownOpcode hline (ofToken?_eq_none_of_notMem hop)
  · obtain ⟨o, make, rfl, ho⟩ := exists_op2_of_mem hop
    exact decode_wrongCount hline (ho.count ▸ hcount)
  · obtain ⟨o, rfl, ho⟩ := exists_oneOperand_of_mem hop
    exact decode_wrongCount hline (ho ▸ hcount)
  · obtain ⟨o, make, rfl, ho⟩ := exists_op2_of_mem hop
    subst hargs
    exact (decode_op2 ho hline).trans (decodeOp2_unknownDest make src hd)
  · subst hop hargs
    exact (decode_pop hline).trans (decodeDest1_unknownDest .pop hd)
  · obtain ⟨o, make, rfl, ho⟩ := exists_op2_of_mem hop
    subst hargs
    exact (decode_op2 ho hline).trans (decodeOp2_noSpelling make r hsrc)
  · subst hop hargs
    exact (decode_push hline).trans (decodeSrc1_noSpelling .push hsrc)
  · refine Machine.step_of_decode_raises hv hat ?_
    rw [htext]
    decide

/-- Settles O8: each of the nine lines is a closed text, and the decoder is run on it. -/
theorem linesThatLookValid : Obligations.LinesThatLookValid := by
  refine ⟨?_, ?_, ?_, ?_, ?_, ?_, ?_, ?_, ?_⟩ <;> decide

end Sys2Proof

/-! The encoder (R84, R88): what it writes has no whitespace inside a token, and decodes to what was
encoded. -/

namespace Sys2Proof

/-! ### Numbers as hex digits -/

theorem hexDigit_hexChar {d : Nat} (h : d < 16) : HexDigit (hexChar d) d :=
  .inl ((show ∀ d < 16, "0123456789abcdef".toList[d]? = some (hexChar d) by decide) d h)

/-- With enough fuel, digits of the number are put before the text, and they spell the number. -/
theorem exists_hexDigits_hexTextFrom {fuel n : Nat} (h : n < fuel) (acc : Text) :
    ∃ ds, hexTextFrom fuel n acc = ds ++ acc ∧ HexDigits ds n := by
  induction fuel generalizing n acc with
  | zero => omega
  | succ fuel ih =>
    by_cases hn : n < 16
    · exact ⟨[hexChar n], by simp [hexTextFrom, hn], .single (hexDigit_hexChar hn)⟩
    · obtain ⟨ds, htext, hds⟩ := ih (show n / 16 < fuel by omega) (hexChar (n % 16) :: acc)
      have hmore := HexDigits.more hds (hexDigit_hexChar (Nat.mod_lt n (by decide)))
      rw [Nat.div_add_mod] at hmore
      exact ⟨ds ++ [hexChar (n % 16)], by simp [hexTextFrom, hn, htext], hmore⟩

theorem hexLiteral_hexText (n : Nat) : HexLiteral (hexText n) n := by
  obtain ⟨ds, htext, hds⟩ := exists_hexDigits_hexTextFrom (Nat.lt_succ_self n) []
  rw [hexText, htext, List.append_nil]
  exact .inl hds

/-- The encoder follows the grammar of operands. -/
theorem operandSpelling_encode (o : Operand) : OperandSpelling o.encode o := by
  cases o with
  | imm n => exact .imm (hexLiteral_hexText n)
  | reg r => exact .reg r
  | mem a => exact .mem (hexLiteral_hexText a)

/-! ### Tokens of an encoded line -/

theorem HexDigit.noSpace {c : Char} {d : Nat} (h : HexDigit c d) : isSpace c = false := by
  by_contra hspace
  simp only [isSpace, Bool.not_eq_false, Bool.or_eq_true, beq_iff_eq] at hspace
  rcases hspace with ((((rfl | rfl) | rfl) | rfl) | rfl) | rfl <;> exact not_hexDigit (by decide) d h

theorem HexLiteral.noSpace {t : Text} {n : Nat} (h : HexLiteral t n) : ∀ c ∈ t, isSpace c = false := by
  intro c hc
  rcases h.char_of_mem hc with ⟨d, hd⟩ | hx
  · exact hd.noSpace
  · simp only [List.mem_cons, List.not_mem_nil, or_false] at hx
    rcases hx with rfl | rfl <;> decide

/-- A spelled operand is one token. -/
theorem OperandSpelling.tokens_eq {t : Text} {o : Operand} (h : OperandSpelling t o) : tokens t = [t] := by
  cases h with
  | imm h => exact tokens_of_noSpace h.ne_nil h.noSpace
  | reg r => exact tokens_of_noSpace r.name_ne_nil r.name_noSpace
  | @mem t a h =>
    refine tokens_of_noSpace (List.cons_ne_nil _ _) fun c hc => ?_
    simp only [List.mem_cons, List.mem_append, List.not_mem_nil, or_false] at hc
    rcases hc with rfl | hc | rfl
    · decide
    · exact h.noSpace c hc
    · decide

@[simp] theorem Reg.tokens_name (r : Reg) : tokens r.name = [r.name] := (OperandSpelling.reg r).tokens_eq

@[simp] theorem Opcode.tokens_name (o : Opcode) : tokens o.name = [o.name] :=
  tokens_of_noSpace o.name_ne_nil o.name_noSpace

@[simp] theorem Operand.tokens_encode (o : Operand) : tokens o.encode = [o.encode] :=
  (operandSpelling_encode o).tokens_eq

@[simp] theorem tokens_append_blank (a b : Text) : tokens (a ++ ' ' :: b) = tokens a ++ tokens b :=
  tokens_append_space (by decide) a b

/-! ### Decoding what was encoded -/

theorem decode_encodeOp2 {o : Opcode} {make : Reg → Operand → Instr} (ho : o.Op2 make) (d : Reg)
    (src : Operand) : decode (encodeOp2 o d src) = .instr (make d src) :=
  (decode_op2 ho (by simp [encodeOp2])).trans
    (decodeOp2_of_spelling make d (operandSpelling_encode src))

theorem exists_encode_of_textual {i : Instr} (h : i.textual = true) :
    ∃ line, encode i = some line ∧ decode line = .instr i := by
  cases i <;> simp [Instr.textual] at h
  case mov d src => exact ⟨_, rfl, decode_encodeOp2 Opcode.mov_op2 d src⟩
  case add d src => exact ⟨_, rfl, decode_encodeOp2 Opcode.add_op2 d src⟩
  case sub d src => exact ⟨_, rfl, decode_encodeOp2 Opcode.sub_op2 d src⟩
  case push src =>
    exact ⟨_, rfl,
      (decode_push (by simp)).trans (decodeSrc1_of_spelling .push (operandSpelling_encode src))⟩
  case pop d => exact ⟨_, rfl, (decode_pop (by simp)).trans (decodeDest1_name .pop d)⟩

/-- Settles O10: the encoder's tokens are those that the grammar and the decoder read, the decoder makes
instructions of program text only, and a line with tokens has a decoding. -/
theorem decodeOfEncodeIsTheInstruction : Obligations.DecodeOfEncodeIsTheInstruction := by
  refine ⟨fun i => exists_encode_of_textual, fun line i => Machine.textual_of_decode,
    fun line hline => ?_⟩
  cases hd : decode line with
  | instr i => exact .inl ⟨i, rfl⟩
  | raises e => exact .inr ⟨e, rfl⟩
  | noTokens => exact absurd hd (decode_ne_noTokens hline)

end Sys2Proof

/-! Dispatch (R102, R105, R108, R109): the fetch of a step of a run, and what an error leaves behind. -/

namespace Sys2Proof.Machine

section
variable {s : State} {lines : List SourceLine} {pc : Nat} {line : SourceLine} {i : Instr}

/-! ### Fetch -/

theorem stepRun_at_length (lines : List SourceLine) (s : State) :
    stepRun lines lines.length s = .next (s.setRun .done) := by
  simp [stepRun, endRun]

theorem stepRun_of_getElem? (hline : lines[pc]? = some line) (s : State) :
    stepRun lines pc s = runLine line s := by
  simp [stepRun, hline]

theorem runLine_of_instr (hd : decode line.text = .instr i) (s : State) : runLine line s = exec i s := by
  simp [runLine, hd]

theorem step_running (hv : s.viewer = []) (hrun : s.run = .running lines pc) :
    step s = stepRun lines pc s :=
  (step_noViewer hv).trans (stepCore_running hrun)

theorem step_atLine (hv : s.viewer = []) (hat : s.atLine lines pc line) : step s = runLine line s :=
  (step_running hv hat.1).trans (stepRun_of_getElem? hat.2 s)

theorem step_of_decode_instr (hv : s.viewer = []) (hat : s.atLine lines pc line)
    (hd : decode line.text = .instr i) : step s = exec i s :=
  (step_atLine hv hat).trans (runLine_of_instr hd s)

/-! ### An error at execute -/

/-- An instruction of program text that leaves a faulted run has raised: a completed line would leave
the run in progress. -/
theorem exists_textRaised_of_faulted {t : State} {rec : FaultRecord} (hi : i.textual = true)
    (h : exec i s = .next t) (hf : t.run = .faulted rec) :
    ∃ s', TextRaised i s s' ∧ t = s'.endFaulted rec := by
  rcases exec_textual_cases s hi with ⟨s', _, he⟩ | ⟨s', e, hraised, he⟩ <;> rw [he] at h
  · obtain ⟨lines', pc', _, _, rfl⟩ := completeLine_next h
    cases hf
  · obtain ⟨lines', pc', line', _, _, rfl⟩ := raiseInRun_next h
    cases hf
    exact ⟨s', hraised, rfl⟩

end

/-- Settles O18: without a turn of the viewer the step is that of the run, which fetches at the position. -/
theorem fetchTakesTheLineAtThePosition : Obligations.FetchTakesTheLineAtThePosition := by
  refine fun s lines pc hv hrun => ⟨?_, fun line hline => step_atLine hv ⟨hrun, hline⟩⟩
  rintro rfl
  exact (step_running hv hrun).trans (stepRun_at_length lines s)

/-- Settles O20: an error at decode is taken in the state of the fetch, and one at execute in the state
in which the instruction raises, where only `push` has made a change. -/
theorem errorInAStepKeepsTheState : Obligations.ErrorInAStepKeepsTheState := by
  refine fun s lines pc line hv hat =>
    ⟨fun e => step_of_decode_raises hv hat, fun i t rec hd hstep hf => ?_⟩
  rw [step_of_decode_instr hv hat hd] at hstep
  obtain ⟨s', hraised, rfl⟩ := exists_textRaised_of_faulted (textual_of_decode hd) hstep hf
  exact ⟨hraised.mem, hraised.push, hraised.other⟩

end Sys2Proof.Machine

/-! `mov`, `add` and `sub` (R130 to R134): reading a source, completing the line, and the arithmetic. -/

namespace Sys2Proof.Machine

/-! ### Reading a source -/

theorem resolve_readable {src : Operand} {s : State} (h : readable src s) :
    resolve src s = .ok (operandValue src s) := by
  cases src with
  | imm n => exact congrArg Except.ok (BitVec.eq_of_toNat_eq (by simp [operandValue]))
  | reg r => rfl
  | mem a => exact resolve_mem_inRange (h a rfl)

theorem reg_readable (r : Reg) (s : State) : readable (.reg r) s := nofun

/-- A register write changes the value of no other source, and neither does the run's position. -/
theorem operandValue_setReg_setRun_of_ne {src : Operand} {d : Reg} (h : src ≠ .reg d) (s : State) (v : U32)
    (o : RunState) : operandValue src ((s.setReg d v).setRun o) = operandValue src s := by
  cases src with
  | imm n => rfl
  | reg r => exact State.getReg_setReg_of_ne s d v fun hr => h (congrArg Operand.reg hr)
  | mem a => rfl

/-! ### A two-operand instruction on a readable source -/

theorem twoOperand_readable (f : U32 → U32 → U32) (d : Reg) {src : Operand} {s : State}
    (h : readable src s) :
    twoOperand f d src s = completeLine (s.setReg d (f (s.getReg d) (operandValue src s))) := by
  simp only [twoOperand, resolve_readable h]

theorem twoOperand_readable_next {f : U32 → U32 → U32} {d : Reg} {src : Operand} {s t : State}
    (h : readable src s) (ht : twoOperand f d src s = .next t) :
    ∃ o, t = (s.setReg d (f (s.getReg d) (operandValue src s))).setRun o := by
  rw [twoOperand_readable f d h] at ht
  obtain ⟨_, _, _, _, rfl⟩ := completeLine_next ht
  exact ⟨_, rfl⟩

section
variable {s : State} {lines : List SourceLine} {pc : Nat} {line : SourceLine}

theorem twoOperand_atLine (f : U32 → U32 → U32) (d : Reg) {src : Operand} (hat : s.atLine lines pc line)
    (h : readable src s) :
    twoOperand f d src s =
      .next ((s.setReg d (f (s.getReg d) (operandValue src s))).atPosition lines (pc + 1)) := by
  obtain ⟨hrun, hline⟩ := hat
  have hpc : pc < lines.length := (List.getElem?_eq_some_iff.1 hline).1
  exact (twoOperand_readable f d h).trans (completeLine_running hrun hpc)

theorem exec_mov_atLine (d : Reg) {src : Operand} (hat : s.atLine lines pc line) (h : readable src s) :
    exec (.mov d src) s = .next ((s.setReg d (operandValue src s)).atPosition lines (pc + 1)) :=
  twoOperand_atLine (fun _ b => b) d hat h

theorem exec_add_atLine (d : Reg) {src : Operand} (hat : s.atLine lines pc line) (h : readable src s) :
    exec (.add d src) s =
      .next ((s.setReg d (s.getReg d + operandValue src s)).atPosition lines (pc + 1)) :=
  twoOperand_atLine aluAdd d hat h

theorem exec_sub_atLine (d : Reg) {src : Operand} (hat : s.atLine lines pc line) (h : readable src s) :
    exec (.sub d src) s =
      .next ((s.setReg d (s.getReg d - operandValue src s)).atPosition lines (pc + 1)) :=
  twoOperand_atLine aluSub d hat h

end

/-! ### Sums and differences of words as numbers -/

theorem add_eq_ofNat (a b : U32) : a + b = BitVec.ofNat 32 ((a.toNat + b.toNat) % 2 ^ 32) :=
  BitVec.eq_of_toNat_eq (by simp)

theorem sub_eq_ofNat (a b : U32) : a - b = BitVec.ofNat 32 ((a.toNat + 2 ^ 32 - b.toNat) % 2 ^ 32) := by
  have hb := b.isLt
  apply BitVec.eq_of_toNat_eq
  rw [BitVec.toNat_sub, BitVec.toNat_ofNat]
  omega

theorem toNat_sub_eq_emod (a b : U32) : ((a - b).toNat : Int) = (a.toNat - b.toNat : Int) % 2 ^ 32 := by
  have hb := b.isLt
  rw [BitVec.toNat_sub]
  omega

theorem add_self_eq_shiftLeft (a : U32) : a + a = a <<< 1 := by
  apply BitVec.eq_of_toNat_eq
  rw [BitVec.toNat_add, BitVec.toNat_shiftLeft, Nat.shiftLeft_eq, pow_one, mul_two]

/-! ### The statements -/

/-- Reading the source again gives the same value, since the first write was to another register. -/
theorem sub_then_add_restores {d : Reg} {src : Operand} {s t u : State} (h : readable src s)
    (hne : src ≠ .reg d) (ht : exec (.sub d src) s = .next t) (hu : exec (.add d src) t = .next u) :
    u.getReg d = s.getReg d := by
  obtain ⟨o, rfl⟩ := twoOperand_readable_next (f := aluSub) h ht
  have hread : readable src ((s.setReg d (aluSub (s.getReg d) (operandValue src s))).setRun o) := h
  obtain ⟨o', rfl⟩ := twoOperand_readable_next (f := aluAdd) hread hu
  rw [operandValue_setReg_setRun_of_ne hne]
  simp [aluAdd, aluSub]

/-- Settles O33: the exact next states give the numbers, and a source other than dest is read twice with
one value. -/
theorem addAndSubAreModular : Obligations.AddAndSubAreModular := by
  intro s lines pc line d src hat h
  refine ⟨⟨_, exec_add_atLine d hat h, ?_⟩, ⟨_, exec_sub_atLine d hat h, ?_⟩,
    fun hne t u => sub_then_add_restores h hne, ⟨_, exec_add_atLine d hat (reg_readable d s), ?_⟩⟩
  · rw [State.setRun_getReg, State.getReg_setReg_self, BitVec.toNat_add]
  · rw [State.setRun_getReg, State.getReg_setReg_self, toNat_sub_eq_emod]
  · rw [State.setRun_getReg, State.getReg_setReg_self]
    exact add_self_eq_shiftLeft (s.getReg d)

/-- Settles O30: the source is in range, and a run at a line can complete it. -/
theorem movWritesTheSourceValue : Obligations.MovWritesTheSourceValue :=
  fun _ _ _ _ d _ => exec_mov_atLine d

/-- Settles O31: as `mov`, with the sum and the difference of words written as numbers. -/
theorem addAndSubWriteTheResult : Obligations.AddAndSubWriteTheResult := by
  intro s lines pc line d src hat h
  rw [← add_eq_ofNat, ← sub_eq_ofNat]
  exact ⟨exec_add_atLine d hat h, exec_sub_atLine d hat h⟩

/-- Settles O34: the source's value is dest's own, so the results are r, r + r and r - r. -/
theorem sameRegisterIsReadTwice : Obligations.SameRegisterIsReadTwice := by
  intro s lines pc line r hat
  have hr : readable (.reg r) s := reg_readable r s
  have hvalue : operandValue (.reg r) s = s.getReg r := rfl
  rw [exec_mov_atLine r hat hr, exec_add_atLine r hat hr, exec_sub_atLine r hat hr, hvalue]
  refine ⟨?_, ?_, ?_⟩
  · rw [State.setReg_getReg_self]
  · rw [two_mul, add_eq_ofNat]
  · rw [BitVec.sub_self, BitVec.ofNat_eq_ofNat]

end Sys2Proof.Machine

/-! `push` and `pop` (R140 to R148): the states they leave at a line, and what esp and the slot hold there. -/

namespace Sys2Proof.Machine

/-! ### The end of an instruction at a line -/

section
variable {s : State} {lines : List SourceLine} {pc : Nat} {line : SourceLine}

theorem completeLine_atLine (hat : s.atLine lines pc line) :
    completeLine s = .next (s.atPosition lines (pc + 1)) :=
  completeLine_running hat.1 (List.getElem?_eq_some_iff.1 hat.2).1

theorem raiseInRun_atLine (hat : s.atLine lines pc line) (e : CoreError) :
    raiseInRun e s = .next (s.faultedAt e pc line) :=
  raiseInRun_running hat.1 hat.2

end

/-! ### The state `push` leaves -/

/-- The state in which `push` has stored the low byte of its source, resolved after the decrement (R140,
R141), and its line is not yet complete. -/
def pushed (src : Operand) (s : State) : State :=
  (pushSlot s).setMem (s.mem.write (pushAddress s) ((operandValue src (pushSlot s)).setWidth 8))

@[simp] theorem pushSlot_getReg_esp (s : State) : (pushSlot s).getReg .esp = s.getReg .esp - 4 :=
  State.getReg_setReg_self s .esp _

theorem pushSlot_getReg_esp_toNat (s : State) : ((pushSlot s).getReg .esp).toNat = pushAddress s :=
  congrArg _ (pushSlot_getReg_esp s)

@[simp] theorem pushed_getReg_esp (src : Operand) (s : State) :
    (pushed src s).getReg .esp = s.getReg .esp - 4 :=
  pushSlot_getReg_esp s

theorem pushed_byteAt_pushAddress (src : Operand) {s : State} (hm : s.mem.wf) :
    (pushed src s).byteAt (pushAddress s) = (operandValue src (pushSlot s)).setWidth 8 :=
  (Memory.read_write hm _ _ _).trans (if_pos rfl)

theorem trunc8_mod_eq_setWidth (v : U32) : trunc8 (v.toNat % 2 ^ 8) = v.setWidth 8 :=
  BitVec.eq_of_toNat_eq (by simp)

/-! ### `push`, an equation per case -/

section
variable {src : Operand} {s : State}

theorem execPush_inRange (h : readable src s) (ha : pushAddress s < s.memSize) :
    execPush src s = completeLine (pushed src s) := by
  have hread : readable src (pushSlot s) := h
  have hslot : pushAddress s + 1 ≤ (pushSlot s).memSize := ha
  simp only [execPush, resolve_readable hread, pushSlot_getReg_esp_toNat, State.memWrite_inRange hslot,
    Memory.writeBytes_one, trunc8_mod_eq_setWidth]
  rfl

theorem execPush_sourceOutOfRange {a : Nat} (h : s.memSize ≤ a) :
    execPush (.mem a) s = raiseInRun (.outOfBounds a) (pushSlot s) := by
  have hsource : (pushSlot s).memSize ≤ a := h
  simp only [execPush, resolve_mem_outOfRange hsource]

theorem execPush_slotOutOfRange (h : readable src s) (ha : s.memSize ≤ pushAddress s) :
    execPush src s = raiseInRun (.outOfBounds (pushAddress s)) (pushSlot s) := by
  have hread : readable src (pushSlot s) := h
  have hslot : (pushSlot s).memSize < pushAddress s + 1 := Nat.lt_succ_of_le ha
  simp only [execPush, resolve_readable hread, pushSlot_getReg_esp_toNat, State.memWrite_outOfRange hslot]

/-- Completing and failing, `push` leaves esp decremented (R140, R142). -/
theorem exec_push_getReg_esp {t : State} (h : exec (.push src) s = .next t) :
    t.getReg .esp = s.getReg .esp - 4 := by
  rcases execPush_cases src s with ⟨_, _, _, he⟩ | ⟨_, he, _⟩ <;> rw [exec, he] at h
  · obtain ⟨_, _, _, _, rfl⟩ := completeLine_next h
    exact pushSlot_getReg_esp s
  · obtain ⟨_, _, _, _, _, rfl⟩ := raiseInRun_next h
    exact pushSlot_getReg_esp s

variable {lines : List SourceLine} {pc : Nat} {line : SourceLine}

theorem exec_push_atLine (hat : s.atLine lines pc line) (h : readable src s)
    (ha : pushAddress s < s.memSize) :
    exec (.push src) s = .next ((pushed src s).atPosition lines (pc + 1)) :=
  (execPush_inRange h ha).trans (completeLine_atLine hat)

theorem exec_push_slotOutOfRange_atLine (hat : s.atLine lines pc line) (h : readable src s)
    (ha : s.memSize ≤ pushAddress s) :
    exec (.push src) s = .next ((pushSlot s).faultedAt (.outOfBounds (pushAddress s)) pc line) :=
  (execPush_slotOutOfRange h ha).trans (raiseInRun_atLine (s := pushSlot s) hat _)

theorem exec_push_sourceOutOfRange_atLine (hat : s.atLine lines pc line) {a : Nat} (h : s.memSize ≤ a) :
    exec (.push (.mem a)) s = .next ((pushSlot s).faultedAt (.outOfBounds a) pc line) :=
  (execPush_sourceOutOfRange h).trans (raiseInRun_atLine (s := pushSlot s) hat _)

end

/-! ### The state `pop` leaves -/

/-- The byte `pop` loads, zero-extended (R143). -/
def poppedValue (s : State) : U32 := (s.byteAt (s.getReg .esp).toNat).setWidth 32

/-- The state in which `pop` has loaded its byte and moved esp, and its line is not yet complete (R143). -/
def popped (d : Reg) (s : State) : State := popSlot (s.setReg d (poppedValue s))

/-- The increment reads esp after the write to dest (R144). -/
theorem popped_esp (s : State) : popped .esp s = s.setReg .esp (poppedValue s + 4) := by
  simp [popped, popSlot]

theorem popped_getReg_esp {d : Reg} (h : d ≠ .esp) (s : State) :
    (popped d s).getReg .esp = s.getReg .esp + 4 := by
  simp [popped, popSlot, State.getReg_setReg_of_ne _ _ _ h.symm]

theorem popped_getReg_dest {d : Reg} (h : d ≠ .esp) (s : State) :
    (popped d s).getReg d = poppedValue s := by
  simp [popped, popSlot, State.getReg_setReg_of_ne _ _ _ h]

theorem execPop_inRange (d : Reg) {s : State} (h : (s.getReg .esp).toNat < s.memSize) :
    execPop d s = completeLine (popped d s) := by
  rcases execPop_cases d s with ⟨_, he⟩ | ⟨hout, _⟩
  · exact he
  · exact absurd h hout.not_gt

theorem exec_pop_atLine {s : State} {lines : List SourceLine} {pc : Nat} {line : SourceLine} (d : Reg)
    (hat : s.atLine lines pc line) (h : (s.getReg .esp).toNat < s.memSize) :
    exec (.pop d) s = .next ((popped d s).atPosition lines (pc + 1)) :=
  (execPop_inRange d h).trans (completeLine_atLine (s := popped d s) hat)

/-! ### `pop` after `push` -/

/-- The byte loaded is the one just stored (R145). -/
theorem poppedValue_pushed (src : Operand) {s : State} (hm : s.mem.wf) :
    poppedValue (pushed src s) = ((operandValue src (pushSlot s)).setWidth 8).setWidth 32 := by
  rw [poppedValue, pushed_getReg_esp]
  exact congrArg _ (pushed_byteAt_pushAddress src hm)

theorem toNat_setWidth_byte (v : U32) : ((v.setWidth 8).setWidth 32).toNat = v.toNat % 2 ^ 8 := by
  simp only [BitVec.toNat_setWidth]
  omega

theorem toNat_setWidth_byte_add_four (v : U32) :
    ((v.setWidth 8).setWidth 32 + 4).toNat = v.toNat % 2 ^ 8 + 4 := by
  have hv := toNat_setWidth_byte v
  bv_omega

/-! ### Where esp wraps -/

theorem toNat_sub_four_of_lt {v : U32} (h : v.toNat < 4) : (v - 4).toNat = v.toNat + 2 ^ 32 - 4 := by
  bv_omega

theorem toNat_add_four_of_le {v : U32} (h : 2 ^ 32 - 4 ≤ v.toNat) :
    (v + 4).toNat = v.toNat + 4 - 2 ^ 32 := by
  bv_omega

/-! ### The statements -/

/-- Settles O38: the source is read in the decremented state, and the example is the general clause at
esp = 0x100. -/
theorem pushEspStoresTheNewValue : Obligations.PushEspStoresTheNewValue := by
  intro s lines pc line hm hat ha
  have hbyte : (pushed (.reg .esp) s).byteAt (pushAddress s) = (s.getReg .esp - 4).setWidth 8 := by
    rw [pushed_byteAt_pushAddress _ hm, operandValue, pushSlot_getReg_esp]
  refine ⟨_, exec_push_atLine hat (reg_readable .esp s) ha, pushed_getReg_esp (.reg .esp) s, hbyte,
    fun hesp => ?_⟩
  simpa [pushAddress, hesp] using hbyte

/-- Settles O39: both failing accesses raise in the state after the decrement. -/
theorem failedPushKeepsTheDecrement : Obligations.FailedPushKeepsTheDecrement :=
  fun _ _ _ _ hat => ⟨fun _ ha => exec_push_sourceOutOfRange_atLine hat ha,
    fun _ hread ha => exec_push_slotOutOfRange_atLine hat hread ha⟩

/-- Settles O42: dest is esp, so the increment adds to the loaded byte. -/
theorem popEspAddsFourToTheByte : Obligations.PopEspAddsFourToTheByte := by
  intro s lines pc line hat h
  rw [exec_pop_atLine .esp hat h, popped_esp]
  rfl

/-- Settles O43: `pop` runs at the next line, reads the byte that `push` stored, and its increment undoes
the decrement unless it was to esp that the byte went. -/
theorem pushThenPopRestoresTheStack : Obligations.PushThenPopRestoresTheStack := by
  intro s lines pc line src r hm hat hpc hread ha
  have hnext : ((pushed src s).atPosition lines (pc + 1)).atLine lines (pc + 1) lines[pc + 1] :=
    ⟨rfl, List.getElem?_eq_getElem hpc⟩
  have hvalue : poppedValue ((pushed src s).atPosition lines (pc + 1)) =
      ((operandValue src (pushSlot s)).setWidth 8).setWidth 32 := poppedValue_pushed src hm
  refine ⟨_, _, exec_push_atLine hat hread ha, exec_pop_atLine r hnext ?_, rfl,
    fun hr => ⟨?_, ?_⟩, fun hr => ?_⟩
  · rw [State.setRun_getReg, pushed_getReg_esp]
    exact ha
  · rw [State.setRun_getReg, popped_getReg_esp hr, State.setRun_getReg, pushed_getReg_esp]
    exact BitVec.sub_add_cancel _ _
  · rw [State.setRun_getReg, popped_getReg_dest hr, hvalue]
    exact toNat_setWidth_byte _
  · subst hr
    rw [popped_esp, State.setRun_getReg, State.getReg_setReg_self, hvalue]
    exact toNat_setWidth_byte_add_four _

/-- Settles O44: `push` decrements whether it completes or fails, and at both ends the wrapped number is
the value modulo 2^32. -/
theorem stackPointerWraps : Obligations.StackPointerWraps := by
  refine fun s lines pc line hat => ⟨fun hlow src => ?_, fun hhigh h d hd => ?_⟩
  · rw [← toNat_sub_four_of_lt hlow]
    exact ⟨fun t ht => congrArg _ (exec_push_getReg_esp ht),
      fun hread ha => ⟨_, exec_push_atLine hat hread ha, rfl⟩,
      fun hread ha => exec_push_slotOutOfRange_atLine hat hread ha⟩
  · refine ⟨_, exec_pop_atLine d hat h, ?_⟩
    rw [State.setRun_getReg, popped_getReg_esp hd, toNat_add_four_of_le hhigh]

end Sys2Proof.Machine

/-! The register port (R150 to R165): what a call on a known name writes, its results as numbers, and the
laws of the operations. -/

namespace Sys2Proof.Machine

/-! ### A call on a known name -/

/-- In every state the call writes `f` of the register's value back to it and completes (R152). -/
def WritesResult (i : Instr) (r : Reg) (f : U32 → U32) : Prop :=
  ∀ s, exec i s = .next ((s.setReg r (f (s.getReg r))).answer .completed)

section
variable {r : Reg} {f : U32 → Except CoreError U32} {s : State}

theorem next_registerOp_ok {v : U32} (h : f (s.getReg r) = .ok v) :
    (.next (registerOp r.name f s) : Host.Outcome State Fault Refusal) =
      .next ((s.setReg r v).answer .completed) := by
  simp only [registerOp_known, h]

theorem next_registerOp_error {e : CoreError} (h : f (s.getReg r) = .error e) :
    (.next (registerOp r.name f s) : Host.Outcome State Fault Refusal) =
      .next (s.answer (.failed e)) := by
  simp only [registerOp_known, h]

end

theorem execPortGet_known (r : Reg) (s : State) :
    execPortGet r.name s = .next (s.answer (.u32 (s.getReg r))) := by
  simp [execPortGet]

/-- A call that writes the value already there changes no register. -/
theorem WritesResult.exec_of_fixed {i : Instr} {r : Reg} {f : U32 → U32} (h : WritesResult i r f)
    {s : State} (hf : f (s.getReg r) = s.getReg r) : exec i s = .next (s.answer .completed) := by
  rw [h s, hf, State.setReg_getReg_self]

theorem WritesResult.exec_eq {i j : Instr} {r : Reg} {f g : U32 → U32} (hi : WritesResult i r f)
    (hj : WritesResult j r g) {s : State} (h : f (s.getReg r) = g (s.getReg r)) :
    exec i s = exec j s := by
  rw [hi s, hj s, h]

/-- The second of two calls on one register reads what the first wrote there. -/
theorem WritesResult.restores {i j : Instr} {r : Reg} {f g : U32 → U32} (hi : WritesResult i r f)
    (hj : WritesResult j r g) {s : State} (h : g (f (s.getReg r)) = s.getReg r) :
    ∃ t u, exec i s = .next t ∧ exec j t = .next u ∧ u.getReg r = s.getReg r :=
  ⟨_, _, hi s, hj _, by simp [h]⟩

/-! ### What each operation writes -/

section
variable (r : Reg) (b : U32)

theorem portSet_writes (v : Nat) : WritesResult (.portSet r.name v) r (fun _ => trunc32 v) :=
  fun _ => next_registerOp_ok rfl

theorem portAdd_writes : WritesResult (.portAdd r.name b) r (· + b) := fun _ => next_registerOp_ok rfl

theorem portSub_writes : WritesResult (.portSub r.name b) r (· - b) := fun _ => next_registerOp_ok rfl

theorem portMul_writes : WritesResult (.portMul r.name b) r (· * b) := fun _ => next_registerOp_ok rfl

theorem portAnd_writes : WritesResult (.portAnd r.name b) r (· &&& b) :=
  fun _ => next_registerOp_ok rfl

theorem portOr_writes : WritesResult (.portOr r.name b) r (· ||| b) := fun _ => next_registerOp_ok rfl

theorem portXor_writes : WritesResult (.portXor r.name b) r (· ^^^ b) :=
  fun _ => next_registerOp_ok rfl

theorem portDiv_writes {b : U32} (hb : b ≠ 0) : WritesResult (.portDiv r.name b) r (· / b) :=
  fun _ => next_registerOp_ok (if_neg hb)

end

theorem exec_portDiv_zero (r : Reg) (s : State) :
    exec (.portDiv r.name 0) s = .next (s.answer (.failed .divisionByZero)) :=
  next_registerOp_error (if_pos rfl)

/-! ### Shifts and rotates: the amount first (R160) -/

theorem checkShift_ok {n : Nat} (h : n < 32) (v : U32) : checkShift n v = .ok v := if_pos h

theorem checkShift_error {n : Nat} (h : 32 ≤ n) (v : U32) :
    checkShift n v = .error (.invalidShiftAmount n) := if_neg (Nat.not_lt.2 h)

theorem next_registerOp_checkShift_error {n : Nat} (h : 32 ≤ n) (r : Reg) (f : U32 → U32) (s : State) :
    (.next (registerOp r.name (fun a => checkShift n (f a)) s) : Host.Outcome State Fault Refusal) =
      .next (s.answer (.failed (.invalidShiftAmount n))) :=
  next_registerOp_error (checkShift_error h _)

/-- R163's formula is the library's rotation. -/
theorem aluRol_eq_rotateLeft {n : Nat} (h : n < 32) (a : U32) : aluRol a n = .ok (a.rotateLeft n) := by
  rw [BitVec.rotateLeft_eq_rotateLeftAux_of_lt h]
  exact checkShift_ok h _

/-- R164's formula is the library's rotation. -/
theorem aluRor_eq_rotateRight {n : Nat} (h : n < 32) (a : U32) : aluRor a n = .ok (a.rotateRight n) := by
  rw [BitVec.rotateRight_eq_rotateRightAux_of_lt h]
  exact checkShift_ok h _

section
variable (r : Reg) {n : Nat} (h : n < 32)
include h

theorem portShl_writes : WritesResult (.portShl r.name n) r (· <<< n) :=
  fun _ => next_registerOp_ok (checkShift_ok h _)

theorem portShr_writes : WritesResult (.portShr r.name n) r (· >>> n) :=
  fun _ => next_registerOp_ok (checkShift_ok h _)

theorem portRol_writes : WritesResult (.portRol r.name n) r (·.rotateLeft n) :=
  fun _ => next_registerOp_ok (aluRol_eq_rotateLeft h _)

theorem portRor_writes : WritesResult (.portRor r.name n) r (·.rotateRight n) :=
  fun _ => next_registerOp_ok (aluRor_eq_rotateRight h _)

end

/-! ### Results as numbers -/

theorem eq_ofNat_of_toNat_eq {v : U32} {n : Nat} (h : v.toNat = n) : v = BitVec.ofNat 32 n :=
  BitVec.eq_of_toNat_eq (by rw [BitVec.toNat_ofNat, ← h, Nat.mod_eq_of_lt v.isLt])

section
variable (a b : U32)

theorem mul_eq_ofNat : a * b = BitVec.ofNat 32 (a.toNat * b.toNat % 2 ^ 32) :=
  eq_ofNat_of_toNat_eq (BitVec.toNat_mul a b)

theorem div_eq_ofNat : a / b = BitVec.ofNat 32 (a.toNat / b.toNat) :=
  eq_ofNat_of_toNat_eq BitVec.toNat_udiv

theorem and_eq_ofNat : a &&& b = BitVec.ofNat 32 (a.toNat &&& b.toNat) :=
  eq_ofNat_of_toNat_eq (BitVec.toNat_and a b)

theorem or_eq_ofNat : a ||| b = BitVec.ofNat 32 (a.toNat ||| b.toNat) :=
  eq_ofNat_of_toNat_eq (BitVec.toNat_or a b)

theorem xor_eq_ofNat : a ^^^ b = BitVec.ofNat 32 (a.toNat ^^^ b.toNat) :=
  eq_ofNat_of_toNat_eq (BitVec.toNat_xor a b)

variable (n : Nat)

theorem shiftLeft_eq_ofNat : a <<< n = BitVec.ofNat 32 (a.toNat * 2 ^ n % 2 ^ 32) :=
  eq_ofNat_of_toNat_eq (by rw [BitVec.toNat_shiftLeft, Nat.shiftLeft_eq])

theorem shiftRight_eq_ofNat : a >>> n = BitVec.ofNat 32 (a.toNat / 2 ^ n) :=
  eq_ofNat_of_toNat_eq (by rw [BitVec.toNat_ushiftRight, Nat.shiftRight_eq_div_pow])

/-- A right shift keeps a word below 2^32, so only the left shift loses bits to the modulus. -/
theorem toNat_shiftRight_mod : (a.toNat >>> n) % 2 ^ 32 = a.toNat >>> n :=
  Nat.mod_eq_of_lt ((Nat.shiftRight_le _ _).trans_lt a.isLt)

end

theorem rotateLeft_eq_ofNat {n : Nat} (h : n < 32) (a : U32) : a.rotateLeft n =
    BitVec.ofNat 32 ((a.toNat <<< n ||| a.toNat >>> (32 - n)) % 2 ^ 32) :=
  eq_ofNat_of_toNat_eq (by
    rw [BitVec.toNat_rotateLeft, Nat.mod_eq_of_lt h, Nat.or_mod_two_pow, toNat_shiftRight_mod])

theorem rotateRight_eq_ofNat {n : Nat} (h : n < 32) (a : U32) : a.rotateRight n =
    BitVec.ofNat 32 ((a.toNat >>> n ||| a.toNat <<< (32 - n)) % 2 ^ 32) :=
  eq_ofNat_of_toNat_eq (by
    rw [BitVec.toNat_rotateRight, Nat.mod_eq_of_lt h, Nat.or_mod_two_pow, toNat_shiftRight_mod])

/-! ### The laws of words (R165) -/

theorem rotateLeft_zero (v : U32) : v.rotateLeft 0 = v := by
  ext i hi
  simp [BitVec.getElem_rotateLeft]

theorem rotateRight_zero (v : U32) : v.rotateRight 0 = v := by
  ext i hi
  simp [BitVec.getElem_rotateRight, hi]

section
variable {n : Nat} (h : n < 32) (v : U32)
include h

/-- Rotating right takes bit i from bit n + i of the rotation, or from one of its n low bits when that is
past the top; either holds bit i of the word. -/
theorem rotateRight_rotateLeft : (v.rotateLeft n).rotateRight n = v := by
  ext i hi
  simp only [BitVec.getElem_rotateRight, BitVec.getElem_rotateLeft, Nat.mod_eq_of_lt h]
  split
  · rw [dif_neg (by omega)]
    congr 1; omega
  · rw [dif_pos (by omega)]
    congr 1; omega

/-- The two formulas are one with the amounts n and 32 - n exchanged. -/
theorem rotateLeft_eq_rotateRight_sub (hpos : 1 ≤ n) : v.rotateLeft n = v.rotateRight (32 - n) := by
  have hsub : 32 - (32 - n) = n := by omega
  rw [rotateLeft_eq_ofNat h, rotateRight_eq_ofNat (by omega), hsub, Nat.lor_comm]

theorem rotateRight_eq_rotateLeft_sub (hpos : 1 ≤ n) : v.rotateRight n = v.rotateLeft (32 - n) := by
  have hsub : 32 - (32 - n) = n := by omega
  rw [rotateLeft_eq_rotateRight_sub (by omega) v (by omega), hsub]

theorem rotateLeft_rotateRight : (v.rotateRight n).rotateLeft n = v := by
  rcases Nat.eq_zero_or_pos n with rfl | hpos
  · rw [rotateRight_zero, rotateLeft_zero]
  · rw [rotateRight_eq_rotateLeft_sub h v hpos, rotateLeft_eq_rotateRight_sub h _ hpos,
      rotateRight_rotateLeft (by omega)]

theorem toNat_ofNat_two_pow : (BitVec.ofNat 32 (2 ^ n)).toNat = 2 ^ n := by
  rw [BitVec.toNat_ofNat, Nat.mod_eq_of_lt (Nat.pow_lt_pow_right (by decide) h)]

theorem shiftLeft_eq_mul_two_pow : v <<< n = v * BitVec.ofNat 32 (2 ^ n) := by
  rw [shiftLeft_eq_ofNat, mul_eq_ofNat, toNat_ofNat_two_pow h]

theorem shiftRight_eq_div_two_pow : v >>> n = v / BitVec.ofNat 32 (2 ^ n) := by
  rw [shiftRight_eq_ofNat, div_eq_ofNat, toNat_ofNat_two_pow h]

theorem ofNat_two_pow_ne_zero : BitVec.ofNat 32 (2 ^ n) ≠ 0 := by
  intro h0
  have hpow := toNat_ofNat_two_pow h
  rw [h0] at hpow
  exact (Nat.two_pow_pos n).ne hpow

end

/-- A product below 2^32 is not reduced, and its quotient is exact. -/
theorem mul_div_cancel_of_lt {v b : U32} (h : v.toNat * b.toNat < 2 ^ 32) (hb : b ≠ 0) :
    v * b / b = v := by
  have hpos : 0 < b.toNat := Nat.pos_of_ne_zero fun h0 => hb (BitVec.eq_of_toNat_eq h0)
  apply BitVec.eq_of_toNat_eq
  rw [BitVec.toNat_udiv, BitVec.toNat_mul_of_lt h, Nat.mul_div_cancel _ hpos]

/-! ### The statements -/

/-- Settles O51: each law is the law of words on the register's value, and a second call reads what the
first wrote. -/
theorem registerOperationLaws : Obligations.RegisterOperationLaws := by
  intro s r
  refine ⟨fun n hn => ⟨?_, ?_, fun hpos => ?_, ?_, ?_⟩, fun b => ?_, fun b hlt hb => ?_⟩
  · exact (portRol_writes r hn).restores (portRor_writes r hn) (rotateRight_rotateLeft hn _)
  · exact (portRor_writes r hn).restores (portRol_writes r hn) (rotateLeft_rotateRight hn _)
  · exact (portRol_writes r hn).exec_eq (portRor_writes r (by omega))
      (rotateLeft_eq_rotateRight_sub hn _ hpos)
  · exact (portShl_writes r hn).exec_eq (portMul_writes r _) (shiftLeft_eq_mul_two_pow hn _)
  · exact (portShr_writes r hn).exec_eq (portDiv_writes r (ofNat_two_pow_ne_zero hn))
      (shiftRight_eq_div_two_pow hn _)
  · exact (portAdd_writes r b).restores (portSub_writes r b) (BitVec.add_sub_cancel _ _)
  · exact (portMul_writes r b).restores (portDiv_writes r hb) (mul_div_cancel_of_lt hlt hb)

/-- Settles O46: `get` and `set` on a known and on an unknown name; a register of the constructed state
holds 0. -/
theorem getAndSetReachTheRegister : Obligations.GetAndSetReachTheRegister := by
  refine fun s => ⟨fun r => execPortGet_known r s, fun name hname => execPortGet_unknown hname s,
    fun r v => ?_, fun name v hname => next_registerOp_unknown hname _ s, fun r size init => ?_⟩
  · have hmod : BitVec.ofNat 32 (v % 2 ^ 32) = trunc32 v := BitVec.eq_of_toNat_eq (by simp)
    rw [hmod]
    exact portSet_writes r v s
  · rw [← State.construct_getReg size init r]
    exact execPortGet_known r _

/-- Settles O47: the operations on words, written as numbers. -/
theorem portArithmeticIsModular : Obligations.PortArithmeticIsModular := by
  refine fun s => ⟨fun r b => ?_, fun name b hname => ?_⟩
  · rw [← add_eq_ofNat, ← sub_eq_ofNat, ← mul_eq_ofNat]
    exact ⟨portAdd_writes r b s, portSub_writes r b s, portMul_writes r b s⟩
  · have hop f := next_registerOp_unknown hname f s
    exact ⟨hop _, hop _, hop _⟩

/-- Settles O48: the name is looked up before the divisor is judged. -/
theorem portDivideRoundsDown : Obligations.PortDivideRoundsDown := by
  refine fun s => ⟨fun r b hb => ?_, fun r => exec_portDiv_zero r s,
    fun name b hname => next_registerOp_unknown hname _ s⟩
  rw [← div_eq_ofNat]
  exact portDiv_writes r hb s

/-- Settles O49: the operations on words, written as numbers. -/
theorem portBitwiseOperations : Obligations.PortBitwiseOperations := by
  refine fun s => ⟨fun r b => ?_, fun name b hname => ?_⟩
  · rw [← and_eq_ofNat, ← or_eq_ofNat, ← xor_eq_ofNat]
    exact ⟨portAnd_writes r b s, portOr_writes r b s, portXor_writes r b s⟩
  · have hop f := next_registerOp_unknown hname f s
    exact ⟨hop _, hop _, hop _⟩

/-- Settles O50: below 32 the results written as numbers, of which 0 is the amount that writes the value
back; from 32 on the check fails, and for another name before it. -/
theorem portShiftsAndRotates : Obligations.PortShiftsAndRotates := by
  refine fun s n => ⟨fun r hn => ?_, fun r => ?_, fun r hn => ?_, fun name hname => ?_⟩
  · rw [← shiftLeft_eq_ofNat, ← shiftRight_eq_ofNat, ← rotateLeft_eq_ofNat hn,
      ← rotateRight_eq_ofNat hn]
    exact ⟨portShl_writes r hn s, portShr_writes r hn s, portRol_writes r hn s,
      portRor_writes r hn s⟩
  · have h0 : 0 < 32 := by decide
    simp only [List.forall_mem_cons]
    exact ⟨(portShl_writes r h0).exec_of_fixed (BitVec.shiftLeft_zero _),
      (portShr_writes r h0).exec_of_fixed (BitVec.ushiftRight_zero _),
      (portRol_writes r h0).exec_of_fixed (rotateLeft_zero _),
      (portRor_writes r h0).exec_of_fixed (rotateRight_zero _), nofun⟩
  · have hop f := next_registerOp_checkShift_error hn r f s
    simp only [List.forall_mem_cons]
    exact ⟨hop _, hop _, hop _, hop _, nofun⟩
  · have hop f := next_registerOp_unknown hname f s
    simp only [List.forall_mem_cons]
    exact ⟨hop _, hop _, hop _, hop _, nofun⟩

end Sys2Proof.Machine

/-! A failed port call and the calls after it (R191): no port call reads the answer of an earlier one. -/

namespace Sys2Proof.Machine

section
variable (s : State) (p : PortResult)

theorem registerOp_answer (name : Text) (f : U32 → Except CoreError U32) :
    registerOp name f (s.answer p) = registerOp name f s := by
  simp only [registerOp, State.answer_getReg]
  cases Reg.ofName? name with
  | none => rfl
  | some r => cases f (s.getReg r) <;> rfl

theorem execPortGet_answer (name : Text) : execPortGet name (s.answer p) = execPortGet name s := by
  unfold execPortGet
  cases Reg.ofName? name <;> rfl

theorem readPort_answer (a n : Nat) (f : Nat → PortResult) :
    readPort a n f (s.answer p) = readPort a n f s := rfl

theorem writePort_answer (a n v : Nat) : writePort a n v (s.answer p) = writePort a n v s := by
  rcases Nat.lt_or_ge s.memSize (a + n) with hout | hin
  · rw [writePort_outOfRange v hout, writePort_outOfRange (s := s.answer p) v hout]
    rfl
  · rw [writePort_inRange v hin, writePort_inRange (s := s.answer p) v hin]
    rfl

/-- Each port call is one of four shared operations, and none of them reads the earlier answer. -/
theorem exec_port_answer {j : Instr} (hj : j.port = true) : exec j (s.answer p) = exec j s := by
  cases j with
  | mov | add | sub | push | pop => cases hj
  | portGet => exact execPortGet_answer s p _
  | portSet | portAdd | portSub | portMul | portDiv | portAnd | portOr | portXor | portShl | portShr
  | portRol | portRor => exact next_congr (registerOp_answer s p _ _)
  | portReadByte | portReadWord | portReadDword | portReadByteSeg | portReadWordSeg
  | portReadDwordSeg => exact next_congr (readPort_answer s p _ _ _)
  | portWriteByte | portWriteWord | portWriteDword | portWriteByteSeg | portWriteWordSeg
  | portWriteDwordSeg => exact next_congr (writePort_answer s p _ _ _)

end

/-- Settles O54: a failed call leaves the state with its answer in it, and later port calls do not read
that answer. -/
theorem errorOutsideARunChangesNothing : Obligations.ErrorOutsideARunChangesNothing := by
  intro i s hi
  obtain ⟨t, hexec, hdone⟩ := exec_port_cases s hi
  refine ⟨t, hexec, hdone.run, fun e he => ?_⟩
  have ht : t = s.answer (.failed e) := hdone.failed e he
  exact ⟨ht, fun j hj => by rw [ht, exec_port_answer s _ hj]⟩

end Sys2Proof.Machine

/-! The invariant (R27, R33, R40, R211): it holds after construction, and under it every step is a next
state, in which it holds again. -/

namespace Sys2Proof.Machine

/-! ### Construction -/

theorem Memory.ofInit_unlisted (n : Nat) : Memory.ofInit (fun _ => Config.unlistedByte) n = [] := by
  induction n with
  | zero => rfl
  | succ n ih => rw [Memory.ofInit, ih, Memory.write_unlisted_nil]

/-- Settles O12: a memory filled with what an unlisted address reads as lists nothing, and MEM_SIZE is a
32-bit word plus 1. -/
theorem resetIsAConstruction : Obligations.ResetIsAConstruction := by
  refine ⟨?_, Nat.le_add_left 1 _, Config.lastAddress.isLt⟩
  rw [State.construct, Memory.ofInit_unlisted]
  rfl

theorem State.construct_wf {size : Nat} (init : Nat → U8) (hlow : 1 ≤ size) (hhigh : size ≤ 2 ^ 32) :
    (State.construct size init).wf where
  sizeLow := hlow
  sizeHigh := hhigh
  canonical := Memory.ofInit_wf init size
  inside _ := Memory.mem_ofInit
  runWf := trivial
  requestsWf := nofun

/-- Settles O13: reset is a construction with a size in the range. -/
theorem constructionMeetsTheInvariant : Obligations.ConstructionMeetsTheInvariant := by
  obtain ⟨hreset, hlow, hhigh⟩ := resetIsAConstruction
  exact ⟨hreset ▸ State.construct_wf _ hlow hhigh, fun _ => State.construct_wf⟩

/-! ### What keeps the invariant -/

section
variable {s t : State}

theorem State.wf.setRun (h : s.wf) {o : RunState} (ho : o.wf) : (s.setRun o).wf :=
  { h with runWf := ho }

theorem State.wf.setRequests (h : s.wf) {rs : List Request} (hrs : ∀ r ∈ rs, r.wellFormed = true) :
    (s.setRequests rs).wf :=
  { h with requestsWf := hrs }

theorem State.wf.setViewer (h : s.wf) (vs : List ViewerTurn) : (s.setViewer vs).wf := { h with }

theorem State.wf.answer (h : s.wf) (p : PortResult) : (s.answer p).wf := { h with }

theorem State.wf.viewerRead (h : s.wf) (g o : Nat) : (viewerRead g o s).wf := { h with }

theorem PortDone.wf {i : Instr} (hdone : PortDone i s t) (h : s.wf) : t.wf where
  sizeLow := hdone.memSize ▸ h.sizeLow
  sizeHigh := hdone.memSize ▸ h.sizeHigh
  canonical := hdone.canonical h.canonical
  inside := hdone.memSize ▸ hdone.inside h.inside
  runWf := hdone.run ▸ h.runWf
  requestsWf := hdone.requests ▸ h.requestsWf

end

/-! ### A step of a run -/

section
variable {s : State} {lines : List SourceLine} {pc : Nat}

/-- At a line an instruction of program text completes or faults the run: either is a next state. -/
theorem exists_exec_textual_next {i : Instr} {line : SourceLine} (hi : i.textual = true)
    (hat : s.atLine lines pc line) : ∃ t, exec i s = .next t := by
  obtain ⟨hrun, hline⟩ := hat
  rcases exec_textual_cases s hi with ⟨s', hs, he⟩ | ⟨s', e, hs, he⟩ <;> rw [he]
  · exact ⟨_, completeLine_atLine ⟨hs.run.trans hrun, hline⟩⟩
  · exact ⟨_, raiseInRun_atLine ⟨hs.run.trans hrun, hline⟩ e⟩

/-- Blank lines are dropped, and the position does not pass the end: nothing stops the run (log 7,
log 8). -/
theorem exists_stepRun_next (hrun : s.run = .running lines pc) (hwf : s.run.wf) :
    ∃ t, stepRun lines pc s = .next t := by
  rw [hrun] at hwf
  obtain ⟨⟨hlines, -⟩, hpc⟩ := hwf
  rcases stepRun_cases lines pc s with
    ⟨line, i, hline, hd, he⟩ | ⟨line, e, hline, _, he⟩ | ⟨line, hline, hd, _⟩ | ⟨_, he⟩ | ⟨hpast, _⟩
  · exact he ▸ exists_exec_textual_next (textual_of_decode hd) ⟨hrun, hline⟩
  · exact ⟨_, he.trans (raiseInRun_atLine ⟨hrun, hline⟩ e)⟩
  · have htokens := tokens_ne_nil_of_wellFormed (hlines line (List.mem_of_getElem? hline))
    exact absurd hd (decode_ne_noTokens htokens)
  · exact ⟨_, he⟩
  · exact absurd hpast hpc.not_gt

theorem stepRun_wf {t : State} (hrun : s.run = .running lines pc) (h : s.wf)
    (ht : stepRun lines pc s = .next t) : t.wf := by
  have hwf := h.runWf
  rw [hrun] at hwf
  rcases stepRun_next hrun ht with
    ⟨hlt, hrun', _, hrequests, hsize, hcanonical, hinside, _⟩ | ⟨hend, _, hrequests, hsize, hmem⟩
  · exact ⟨hsize ▸ h.sizeLow, hsize ▸ h.sizeHigh, hcanonical h.canonical, hsize ▸ hinside h.inside,
      hrun' ▸ ⟨hwf.1, hlt⟩, hrequests ▸ h.requestsWf⟩
  · have hended : t.run.wf := by
      rcases hend with ⟨_, hrun'⟩ | ⟨_, _, _, hrun'⟩ <;> exact hrun' ▸ trivial
    exact ⟨hsize ▸ h.sizeLow, hsize ▸ h.sizeHigh, hmem ▸ h.canonical, hsize ▸ hmem ▸ h.inside,
      hended, hrequests ▸ h.requestsWf⟩

end

/-! ### Progress and preservation -/

section
variable {s : State}

theorem exists_serveHost_next_wf (h : s.wf) : ∃ t, serveHost s = .next t ∧ t.wf := by
  unfold serveHost
  have hwaiting := h.requestsWf
  split <;> rename_i hrequests
  · exact ⟨_, rfl, h⟩
  all_goals
    rw [hrequests, List.forall_mem_cons] at hwaiting
    obtain ⟨hcall, hrest⟩ := hwaiting
    have htaken := h.setRequests hrest
  · obtain ⟨t, ht, hdone⟩ := exec_port_cases _ hcall
    exact ⟨t, ht, hdone.wf htaken⟩
  · exact ⟨_, rfl, htaken.setRun ⟨programLines_wf _, Nat.zero_le _⟩⟩
  · exact ⟨_, rfl, htaken.answer _⟩

theorem exists_stepCore_next_wf (h : s.wf) : ∃ t, stepCore s = .next t ∧ t.wf := by
  rcases stepCore_cases s with ⟨lines, pc, hrun, he⟩ | ⟨outcome, _, he⟩ | ⟨_, he⟩ <;> rw [he]
  · obtain ⟨t, ht⟩ := exists_stepRun_next hrun h.runWf
    exact ⟨t, ht, stepRun_wf hrun h ht⟩
  · exact ⟨_, rfl, (h.setRun (o := .idle) trivial).answer outcome⟩
  · exact exists_serveHost_next_wf h

theorem exists_step_next_wf (h : s.wf) : ∃ t, step s = .next t ∧ t.wf := by
  rcases step_cases s with ⟨g, o, rest, _, he⟩ | ⟨rest, _, he⟩ <;> rw [he]
  · exact ⟨_, rfl, (h.setViewer rest).viewerRead g o⟩
  · exact exists_stepCore_next_wf (h.setViewer rest)

end

/-- Settles O14: under the invariant a step has a next state of the invariant, and no other. -/
theorem stepKeepsTheInvariant : Obligations.StepKeepsTheInvariant := by
  intro s t h ht
  obtain ⟨u, hu, hwf⟩ := exists_step_next_wf h
  cases hu.symm.trans ht
  exact hwf

/-- Settles O15: a port call answers, a run at a line completes it or faults, and an ended run returns. -/
theorem noStepStopsTheMachine : Obligations.NoStepStopsTheMachine := by
  intro s h
  obtain ⟨t, ht, -⟩ := exists_step_next_wf h
  exact ⟨t, ht⟩

/-- Settles O16: neither the CORE's operations nor the viewer's read write MEM_SIZE. -/
theorem memorySizeIsFixed : Obligations.MemorySizeIsFixed := fun _ _ => step_memSize

end Sys2Proof.Machine

/-! Every run ends (R100, R111): each step takes one off a bound that counts the lines left, the end of the
run, its return and the viewer's turns. -/

namespace Sys2Proof.Machine

/-- The steps that a run has left at most, its final fetch and its return included. -/
def RunState.stepsLeft : RunState → Nat
  | .running lines pc => lines.length - pc + 2
  | .done | .faulted _ => 1
  | .idle => 0

/-- With the turns of the viewer, each of which may take a step. -/
def State.stepsLeft (s : State) : Nat := s.run.stepsLeft + s.viewer.length

theorem RunState.ended.stepsLeft_eq {o : RunState} (h : o.ended) : o.stepsLeft = 1 := by
  cases o with
  | done | faulted => rfl
  | idle | running => cases h

/-- What an ended run returns to the host (R110, R188). -/
def RunState.Returns (o : RunState) (p : PortResult) : Prop :=
  (o = .done ∧ p = .runDone) ∨ ∃ rec, o = .faulted rec ∧ p = .runFaulted rec

theorem exists_stepCore_returns {s : State} (h : s.run.ended) :
    ∃ p, s.run.Returns p ∧ stepCore s = .next (returnRun p s) := by
  rcases stepCore_cases s with ⟨_, _, hrun, _⟩ | ⟨p, hp, he⟩ | ⟨hrun, _⟩
  · rw [hrun] at h; cases h
  · exact ⟨p, hp, he⟩
  · rw [hrun] at h; cases h

/-- A turn that is not a read takes no step, so the turns do not get more. -/
theorem length_le_of_noRead {vs rest : List ViewerTurn} (h : vs = rest ∨ vs = .pass :: rest) :
    rest.length ≤ vs.length := by
  rcases h with rfl | rfl <;> simp

section
variable {s : State} {lines : List SourceLine} {pc : Nat}

/-- What the CORE's step of a run leaves: an ended run, or the run at the next line of it. -/
theorem exists_stepRun_advances (hrun : s.run = .running lines pc) (hwf : s.run.wf) :
    ∃ t, stepRun lines pc s = .next t ∧ t.viewer = s.viewer ∧
      (t.run.ended ∨ (pc < lines.length ∧ t.run = .running lines (pc + 1))) := by
  obtain ⟨t, ht⟩ := exists_stepRun_next hrun hwf
  refine ⟨t, ht, ?_⟩
  rcases stepRun_next hrun ht with ⟨hlt, hrun', hviewer, _⟩ | ⟨hend, hviewer, _⟩
  · exact ⟨hviewer, .inr ⟨hlt, hrun'⟩⟩
  · refine ⟨hviewer, .inl ?_⟩
    rcases hend with ⟨_, hrun'⟩ | ⟨_, _, _, hrun'⟩ <;> exact hrun' ▸ trivial

theorem exists_step_decreases (hrun : s.run = .running lines pc) (hwf : s.run.wf) :
    ∃ t, step s = .next t ∧ t.stepsLeft < s.stepsLeft ∧
      (t.run.ended ∨ ∃ pc', t.run = .running lines pc' ∧ t.run.wf) := by
  rcases step_cases s with ⟨g, o, rest, hviewer, he⟩ | ⟨rest, hviewer, he⟩
  · refine ⟨_, he, ?_, .inr ⟨pc, hrun, hwf⟩⟩
    simp [State.stepsLeft, viewerRead, hviewer]
  · have hturns := length_le_of_noRead hviewer
    obtain ⟨t, ht, hrest, hend⟩ := exists_stepRun_advances (s := s.setViewer rest) hrun hwf
    refine ⟨t, (he.trans (stepCore_running hrun)).trans ht, ?_⟩
    simp only [State.stepsLeft, hrest, hrun, State.setViewer_viewer]
    rcases hend with hend | ⟨hlt, hrun'⟩
    · rw [hend.stepsLeft_eq]
      exact ⟨by simp only [RunState.stepsLeft]; omega, .inl hend⟩
    · rw [hrun] at hwf
      rw [hrun']
      exact ⟨by simp only [RunState.stepsLeft]; omega, .inr ⟨pc + 1, rfl, hwf.1, hlt⟩⟩

/-- A run reaches its end, by induction on the bound. -/
theorem exists_core_run_ended (hrun : s.run = .running lines pc) (hwf : s.run.wf) :
    ∃ k t, Host.Core.run Sys2Proof.core k s = .next t ∧ t.run.ended ∧
      k + t.stepsLeft ≤ s.stepsLeft := by
  induction hbound : s.stepsLeft using Nat.strong_induction_on generalizing s pc with
  | _ bound ih =>
    subst hbound
    obtain ⟨t, hstep, hlt, hend | ⟨pc', hrun', hwf'⟩⟩ := exists_step_decreases hrun hwf
    · exact ⟨1, t, (core_run_one s).trans hstep, hend, by omega⟩
    · obtain ⟨k, u, hu, hend, hk⟩ := ih _ hlt hrun' hwf' rfl
      exact ⟨k + 1, u, (core_run_succ k hstep).trans hu, hend, by omega⟩

end

/-- A step after the end of a run is a read of the viewer or the return of the outcome. -/
theorem exists_step_of_ended {s : State} (h : s.run.ended) :
    ∃ t, step s = .next t ∧
      ((t.run = s.run ∧ t.stepsLeft < s.stepsLeft) ∨
        (t.run = .idle ∧ ∃ p, s.run.Returns p ∧ t.result = some p)) := by
  rcases step_cases s with ⟨g, o, rest, hviewer, he⟩ | ⟨rest, _, he⟩
  · refine ⟨_, he, .inl ⟨rfl, ?_⟩⟩
    simp [State.stepsLeft, viewerRead, hviewer]
  · obtain ⟨p, hp, hreturn⟩ := exists_stepCore_returns (s := s.setViewer rest) h
    exact ⟨_, he.trans hreturn, .inr ⟨rfl, p, hp, rfl⟩⟩

/-- An ended run returns its outcome, by induction on the bound. -/
theorem exists_core_run_returned {s : State} (h : s.run.ended) :
    ∃ n u p, n ≤ s.stepsLeft ∧ Host.Core.run Sys2Proof.core n s = .next u ∧ u.run = .idle ∧
      s.run.Returns p ∧ u.result = some p := by
  induction hbound : s.stepsLeft using Nat.strong_induction_on generalizing s with
  | _ bound ih =>
    subst hbound
    obtain ⟨t, hstep, ⟨hrun, hlt⟩ | ⟨hidle, p, hp, hresult⟩⟩ := exists_step_of_ended h
    · obtain ⟨n, u, p, hn, hu, hidle, hp, hresult⟩ := ih _ hlt (hrun ▸ h) rfl
      exact ⟨n + 1, u, p, by omega, (core_run_succ n hstep).trans hu, hidle, hrun ▸ hp, hresult⟩
    · have hpos : 1 ≤ s.stepsLeft := h.stepsLeft_eq ▸ Nat.le_add_right _ _
      exact ⟨1, t, p, hpos, (core_run_one s).trans hstep, hidle, hp, hresult⟩

/-- Settles O22: the bound is the length of L plus 2 at the first line, and 1 of it is left, beside the
viewer's turns, when the run has ended. -/
theorem everyRunEnds : Obligations.EveryRunEnds := by
  intro s text hrun
  have hwf : s.run.wf := hrun ▸ ⟨programLines_wf text, Nat.zero_le _⟩
  have hbound : s.stepsLeft = (programLines text).length + 2 + s.viewer.length := by
    simp [State.stepsLeft, RunState.stepsLeft, hrun]
  obtain ⟨k, t, ht, hend, hk⟩ := exists_core_run_ended hrun hwf
  obtain ⟨n, u, p, hn, hu, hidle, hreturns, hresult⟩ := exists_core_run_returned hend
  have hleft : 1 ≤ t.stepsLeft := hend.stepsLeft_eq ▸ Nat.le_add_right _ _
  refine ⟨k, t, by omega, ht, hend, k + n, u, by omega, (core_run_add k n ht).trans hu, hidle, ?_⟩
  rcases hreturns with ⟨hdone, rfl⟩ | ⟨rec, hfaulted, rfl⟩
  · exact .inl ⟨hdone, hresult⟩
  · exact .inr ⟨rec, hfaulted, hresult⟩

end Sys2Proof.Machine

/-! The instructions of program text out of range, their exact next states, and what each leaves unchanged
(R24, R58, R109, R140, R143). -/

namespace Sys2Proof.Machine

/-! ### The end of an instruction sets the run state only -/

theorem exists_setRun_of_completeLine {s t : State} (h : completeLine s = .next t) :
    ∃ o, t = s.setRun o := by
  obtain ⟨_, _, _, _, rfl⟩ := completeLine_next h
  exact ⟨_, rfl⟩

theorem exists_setRun_of_raiseInRun {e : CoreError} {s t : State} (h : raiseInRun e s = .next t) :
    ∃ o, t = s.setRun o := by
  obtain ⟨_, _, _, _, _, rfl⟩ := raiseInRun_next h
  exact ⟨_, rfl⟩

/-! ### `mov`, `add` and `sub` -/

theorem twoOperand_sourceOutOfRange (f : U32 → U32 → U32) (d : Reg) {s : State} {a : Nat}
    (h : s.memSize ≤ a) : twoOperand f d (.mem a) s = raiseInRun (.outOfBounds a) s := by
  simp only [twoOperand, resolve_mem_outOfRange h]

/-- Settles O32: the source is resolved before the operation, so the three raise alike. -/
theorem sourceOutOfRangeEndsTheRun : Obligations.SourceOutOfRangeEndsTheRun := by
  intro s lines pc line d a hat h
  have hraise f := (twoOperand_sourceOutOfRange f d h).trans (raiseInRun_atLine hat _)
  exact ⟨hraise fun _ b => b, hraise aluAdd, hraise aluSub⟩

/-- A two-operand instruction writes dest and the run state at most; an error writes dest back. -/
theorem twoOperand_next {f : U32 → U32 → U32} {d : Reg} {src : Operand} {s t : State}
    (h : twoOperand f d src s = .next t) : ∃ v o, t = (s.setReg d v).setRun o := by
  rcases twoOperand_cases f d src s with ⟨_, _, he⟩ | ⟨_, _, he⟩ <;> rw [he] at h
  · exact ⟨_, exists_setRun_of_completeLine h⟩
  · refine ⟨s.getReg d, ?_⟩
    rw [State.setReg_getReg_self]
    exact exists_setRun_of_raiseInRun h

/-- Settles O35: the three instructions are the two-operand form, which writes dest and the run state. -/
theorem movAddSubFrame : Obligations.MovAddSubFrame := by
  intro s t d src i hi h
  have hform : ∃ f, exec i s = twoOperand f d src s := by
    rcases hi with rfl | rfl | rfl
    · exact ⟨fun _ b => b, rfl⟩
    · exact ⟨aluAdd, rfl⟩
    · exact ⟨aluSub, rfl⟩
  obtain ⟨f, hf⟩ := hform
  obtain ⟨v, o, rfl⟩ := twoOperand_next (hf ▸ h)
  exact ⟨fun r hr => State.getReg_setReg_of_ne s d v hr, fun _ => rfl, rfl, rfl, rfl, rfl⟩

/-! ### `push` -/

/-- Settles O36: the general equation, with the state it names written out. -/
theorem pushStoresTheLowByte : Obligations.PushStoresTheLowByte :=
  fun _ _ _ _ _ hat hread ha => exec_push_atLine hat hread ha

/-- Settles O45: esp is 0, so the slot is at 2^32 - 4, which is past the end of memory. -/
theorem firstPushAfterConstructionFaults : Obligations.FirstPushAfterConstructionFaults := by
  intro size init lines pc line src hline hsize hread
  have hat : ((State.construct size init).atPosition lines pc).atLine lines pc line := ⟨rfl, hline⟩
  have hesp : ((State.construct size init).atPosition lines pc).getReg .esp - 4 = 0xFFFFFFFC := by
    rw [State.setRun_getReg, State.construct_getReg]
    rfl
  have haddress : pushAddress ((State.construct size init).atPosition lines pc) = 0xFFFFFFFC :=
    congrArg BitVec.toNat hesp
  rw [exec_push_slotOutOfRange_atLine hat hread (haddress ▸ hsize), haddress, pushSlot, hesp]

/-- `push` moves esp, writes one byte at its new value or none, and sets the run state. -/
theorem exec_push_next {src : Operand} {s t : State} (h : exec (.push src) s = .next t) :
    ∃ m o, t = ((pushSlot s).setMem m).setRun o ∧
      (m = s.mem ∨ ∃ v, m = s.mem.write (pushAddress s) v) := by
  rcases execPush_cases src s with ⟨v, _, _, he⟩ | ⟨_, he, _⟩ <;> rw [exec, he] at h
  · obtain ⟨o, rfl⟩ := exists_setRun_of_completeLine h
    exact ⟨_, o, rfl, .inr ⟨trunc8 v.toNat, by rw [pushSlot_getReg_esp_toNat]⟩⟩
  · obtain ⟨o, rfl⟩ := exists_setRun_of_raiseInRun h
    exact ⟨s.mem, o, rfl, .inl rfl⟩

/-- Settles O37: the one byte that `push` may write is at its own address. -/
theorem pushFrame : Obligations.PushFrame := by
  intro s t src hm h
  obtain ⟨m, o, rfl, hwrite⟩ := exec_push_next h
  refine ⟨pushSlot_getReg_esp s, fun r hr => State.getReg_setReg_of_ne s .esp _ hr, fun a ha => ?_,
    rfl, rfl, rfl, rfl⟩
  rcases hwrite with rfl | ⟨v, rfl⟩
  · rfl
  · exact (Memory.read_write hm _ v a).trans (if_neg ha)

/-! ### `pop` -/

theorem execPop_outOfRange (d : Reg) {s : State} (h : s.memSize ≤ (s.getReg .esp).toNat) :
    execPop d s = raiseInRun (.outOfBounds (s.getReg .esp).toNat) s := by
  rcases execPop_cases d s with ⟨hin, _⟩ | ⟨_, he⟩
  · exact absurd h hin.not_ge
  · exact he

/-- Settles O40: the two cases of the address that `pop` reads. -/
theorem popLoadsOneByte : Obligations.PopLoadsOneByte :=
  fun _ _ _ _ d hat => ⟨fun h => exec_pop_atLine d hat h,
    fun h => (execPop_outOfRange d h).trans (raiseInRun_atLine hat _)⟩

/-- `pop` writes dest, esp and the run state at most; an error writes the two registers back. -/
theorem exec_pop_next {d : Reg} {s t : State} (h : exec (.pop d) s = .next t) :
    ∃ v w o, t = ((s.setReg d v).setReg .esp w).setRun o := by
  rcases execPop_cases d s with ⟨_, he⟩ | ⟨_, he⟩ <;> rw [exec, he] at h
  · exact ⟨_, _, exists_setRun_of_completeLine h⟩
  · refine ⟨s.getReg d, s.getReg .esp, ?_⟩
    rw [State.setReg_getReg_self, State.setReg_getReg_self]
    exact exists_setRun_of_raiseInRun h

/-- Settles O41: no other register is among the two that `pop` writes, and it stores nothing. -/
theorem popFrame : Obligations.PopFrame := by
  intro s t d h
  obtain ⟨v, w, o, rfl⟩ := exec_pop_next h
  refine ⟨fun r hd hesp => ?_, fun _ => rfl, rfl, rfl, rfl, rfl⟩
  rw [State.setRun_getReg, State.getReg_setReg_of_ne _ _ _ hesp, State.getReg_setReg_of_ne _ _ _ hd]

end Sys2Proof.Machine

/-! What a register-port call leaves unchanged (R24, R166). -/

namespace Sys2Proof.Machine

/-- Nothing but the register of that name, which `get` leaves too, and the answer differs. -/
def RegisterCallFrame (i : Instr) (name : Text) (s t : State) : Prop :=
  (∀ r : Reg, r.name ≠ name ∨ i = .portGet name → t.getReg r = s.getReg r) ∧
  (∀ a, t.byteAt a = s.byteAt a) ∧ t.memSize = s.memSize ∧ t.run = s.run ∧
  t.requests = s.requests ∧ t.viewer = s.viewer ∧ t.viewerResult = s.viewerResult

theorem answer_registerCallFrame (i : Instr) (name : Text) (s : State) (p : PortResult) :
    RegisterCallFrame i name s (s.answer p) :=
  ⟨fun _ _ => rfl, fun _ => rfl, rfl, rfl, rfl, rfl, rfl⟩

theorem registerOp_registerCallFrame {i : Instr} {name : Text} (hi : i ≠ .portGet name)
    (f : U32 → Except CoreError U32) (s : State) :
    RegisterCallFrame i name s (registerOp name f s) := by
  rcases registerOp_cases name f s with ⟨e, h⟩ | ⟨q, v, rfl, _, h⟩ <;> rw [h]
  · exact answer_registerCallFrame i name s _
  · refine ⟨fun r hr => ?_, fun _ => rfl, rfl, rfl, rfl, rfl, rfl⟩
    have hne : r ≠ q := fun e => hr.resolve_right hi (congrArg Reg.name e)
    exact State.getReg_setReg_of_ne s q v hne

theorem portGet_registerCallFrame {name : Text} {s t : State}
    (h : exec (.portGet name) s = .next t) : RegisterCallFrame (.portGet name) name s t := by
  rw [exec, execPortGet] at h
  split at h <;> cases h <;> exact answer_registerCallFrame _ name s _

/-- Settles O53: every call but `get` is a `registerOp`, which writes its own register at most. -/
theorem registerPortFrame : Obligations.RegisterPortFrame := by
  intro s t name v b
  have hop {i} f (hi : i ≠ .portGet name) (he : exec i s = .next (registerOp name f s))
      (h : exec i s = .next t) : RegisterCallFrame i name s t := by
    cases he.symm.trans h
    exact registerOp_registerCallFrame hi f s
  refine List.forall_mem_cons.2 ⟨portGet_registerCallFrame, ?_⟩
  simp only [List.forall_mem_cons]
  exact ⟨hop _ nofun rfl, hop _ nofun rfl, hop _ nofun rfl, hop _ nofun rfl,
    hop _ nofun rfl, hop _ nofun rfl, hop _ nofun rfl, hop _ nofun rfl, hop _ nofun rfl,
    hop _ nofun rfl, hop _ nofun rfl, hop _ nofun rfl, nofun⟩

end Sys2Proof.Machine

/-! No operation of the CORE reads the viewer (R59, R115, R221): done in the state without its viewer, each
gives the same outcome, without its viewer. -/

namespace Sys2Proof.Machine

/-- The outcome with the viewer erased from its next state. -/
def outcomeWithoutViewer : Host.Outcome State Fault Refusal → Host.Outcome State Fault Refusal
  | .next t => .next t.withoutViewer
  | .fault f => .fault f
  | .refused r => .refused r

/-- The operation and the erasure of the viewer may change places. -/
def ViewerFree (op : State → Host.Outcome State Fault Refusal) : Prop :=
  ∀ s, op s.withoutViewer = outcomeWithoutViewer (op s)

section
variable (s : State)

@[simp] theorem State.withoutViewer_run : s.withoutViewer.run = s.run := rfl
@[simp] theorem State.withoutViewer_requests : s.withoutViewer.requests = s.requests := rfl
@[simp] theorem State.withoutViewer_viewer : s.withoutViewer.viewer = [] := rfl
@[simp] theorem State.withoutViewer_getReg (r : Reg) : s.withoutViewer.getReg r = s.getReg r := rfl

end

/-! ### Program text -/

theorem completeLine_viewerFree : ViewerFree completeLine := by
  intro s
  simp only [completeLine, State.withoutViewer_run]
  cases s.run with
  | running lines pc => dsimp only; split <;> rfl
  | idle | done | faulted => rfl

theorem raiseInRun_viewerFree (e : CoreError) : ViewerFree (raiseInRun e) := by
  intro s
  simp only [raiseInRun, State.withoutViewer_run]
  cases s.run with
  | running lines pc => cases h : lines[pc]? <;> simp only [h] <;> rfl
  | idle | done | faulted => rfl

theorem resolve_withoutViewer (src : Operand) (s : State) :
    resolve src s.withoutViewer = resolve src s := by
  cases src <;> rfl

theorem twoOperand_viewerFree (f : U32 → U32 → U32) (d : Reg) (src : Operand) :
    ViewerFree (twoOperand f d src) := by
  intro s
  simp only [twoOperand, resolve_withoutViewer]
  cases resolve src s with
  | ok b => exact completeLine_viewerFree (s.setReg d (f (s.getReg d) b))
  | error e => exact raiseInRun_viewerFree e s

theorem exists_outOfRange_of_not_readable {src : Operand} {s : State} (h : ¬ readable src s) :
    ∃ a, src = .mem a ∧ s.memSize ≤ a := by
  simpa [readable] using h

theorem execPush_viewerFree (src : Operand) : ViewerFree (execPush src) := by
  intro s
  by_cases hread : readable src s
  · rcases Nat.lt_or_ge (pushAddress s) s.memSize with ha | ha
    · rw [execPush_inRange hread ha, execPush_inRange (s := s.withoutViewer) hread ha]
      exact completeLine_viewerFree (pushed src s)
    · rw [execPush_slotOutOfRange hread ha, execPush_slotOutOfRange (s := s.withoutViewer) hread ha]
      exact raiseInRun_viewerFree _ (pushSlot s)
  · obtain ⟨a, rfl, ha⟩ := exists_outOfRange_of_not_readable hread
    rw [execPush_sourceOutOfRange ha, execPush_sourceOutOfRange (s := s.withoutViewer) ha]
    exact raiseInRun_viewerFree _ (pushSlot s)

theorem execPop_viewerFree (d : Reg) : ViewerFree (execPop d) := by
  intro s
  rcases Nat.lt_or_ge (s.getReg .esp).toNat s.memSize with h | h
  · rw [execPop_inRange d h, execPop_inRange (s := s.withoutViewer) d h]
    exact completeLine_viewerFree (popped d s)
  · rw [execPop_outOfRange d h, execPop_outOfRange (s := s.withoutViewer) d h]
    exact raiseInRun_viewerFree _ s

/-! ### The ports -/

theorem registerOp_viewerFree (name : Text) (f : U32 → Except CoreError U32) :
    ViewerFree (fun s => .next (registerOp name f s)) := by
  intro s
  simp only [registerOp, State.withoutViewer_getReg]
  cases Reg.ofName? name with
  | none => rfl
  | some r => cases h : f (s.getReg r) <;> simp only [h] <;> rfl

theorem execPortGet_viewerFree (name : Text) : ViewerFree (execPortGet name) := by
  intro s
  unfold execPortGet
  cases Reg.ofName? name <;> rfl

theorem readPort_viewerFree (a n : Nat) (f : Nat → PortResult) :
    ViewerFree (fun s => .next (readPort a n f s)) := fun _ => rfl

theorem writePort_viewerFree (a n v : Nat) : ViewerFree (fun s => .next (writePort a n v s)) := by
  intro s
  dsimp only
  rcases Nat.lt_or_ge s.memSize (a + n) with hout | hin
  · rw [writePort_outOfRange v hout, writePort_outOfRange (s := s.withoutViewer) v hout]
    rfl
  · rw [writePort_inRange v hin, writePort_inRange (s := s.withoutViewer) v hin]
    rfl

/-! ### Dispatch and the engine -/

theorem exec_viewerFree (i : Instr) : ViewerFree (exec i) := by
  cases i with
  | mov => exact twoOperand_viewerFree (fun _ b => b) _ _
  | add => exact twoOperand_viewerFree aluAdd _ _
  | sub => exact twoOperand_viewerFree aluSub _ _
  | push => exact execPush_viewerFree _
  | pop => exact execPop_viewerFree _
  | portGet => exact execPortGet_viewerFree _
  | portSet | portAdd | portSub | portMul | portDiv | portAnd | portOr | portXor | portShl | portShr
  | portRol | portRor => exact registerOp_viewerFree _ _
  | portReadByte | portReadWord | portReadDword | portReadByteSeg | portReadWordSeg
  | portReadDwordSeg => exact readPort_viewerFree _ _ _
  | portWriteByte | portWriteWord | portWriteDword | portWriteByteSeg | portWriteWordSeg
  | portWriteDwordSeg => exact writePort_viewerFree _ _ _

theorem runLine_viewerFree (line : SourceLine) : ViewerFree (runLine line) := by
  intro s
  unfold runLine
  cases decode line.text with
  | instr i => exact exec_viewerFree i s
  | raises e => exact raiseInRun_viewerFree e s
  | noTokens => rfl

theorem stepRun_viewerFree (lines : List SourceLine) (pc : Nat) : ViewerFree (stepRun lines pc) := by
  intro s
  unfold stepRun
  cases lines[pc]? with
  | some line => exact runLine_viewerFree line s
  | none => dsimp only; split <;> rfl

theorem serveHost_viewerFree : ViewerFree serveHost := by
  intro s
  simp only [serveHost, State.withoutViewer_requests]
  cases s.requests with
  | nil => rfl
  | cons request rest =>
    cases request with
    | call i => exact exec_viewerFree i (s.setRequests rest)
    | executeProgram | dump => rfl

theorem stepCore_viewerFree : ViewerFree stepCore := by
  intro s
  simp only [stepCore, State.withoutViewer_run]
  cases s.run with
  | running lines pc => exact stepRun_viewerFree lines pc s
  | done | faulted => rfl
  | idle => exact serveHost_viewerFree s

/-! ### The simulation -/

theorem step_withoutViewer (s : State) : step s.withoutViewer = outcomeWithoutViewer (stepCore s) :=
  (step_noViewer s.withoutViewer_viewer).trans (stepCore_viewerFree s)

/-- A step is a read of the viewer, or that of the machine without one. -/
theorem step_withoutViewer_cases (s : State) :
    (∃ g o rest, s.viewer = .read g o :: rest ∧
      step s = .next (viewerRead g o (s.setViewer rest))) ∨
    step s.withoutViewer = outcomeWithoutViewer (step s) := by
  refine (step_cases s).imp_right ?_
  rintro ⟨rest, _, he⟩
  rw [he]
  exact step_withoutViewer (s.setViewer rest)

/-- Settles O28: a read writes the viewer's fields only, and every other step is viewer-free. -/
theorem viewerCannotChangeARun : Obligations.ViewerCannotChangeARun := by
  intro s
  rcases step_withoutViewer_cases s with ⟨g, o, rest, hviewer, he⟩ | he
  · rw [he]
    refine ⟨fun t ht => ?_, nofun, nofun⟩
    cases ht
    exact .inl ⟨g, o, rest, hviewer, rfl⟩
  · rw [he]
    refine ⟨fun t ht => .inr ⟨t.withoutViewer, ?_, rfl⟩, fun f hf => ?_, fun f hf => ?_⟩
    · rw [ht]; rfl
    · rw [hf]; rfl
    · rw [hf]; rfl

end Sys2Proof.Machine

/-! Legal lines (R73, R80, R103) and blank program texts (R71, R113). -/

namespace Sys2Proof

/-- Settles O7: the opcode's format is known, dest is a name, and a spelled source is classified as its
operand. -/
theorem legalLinesDecode : Obligations.LegalLinesDecode := by
  intro line src d o h
  have hop2 {op : Opcode} {make} (hop : op.Op2 make) (ht : tokens line = [op.name, d.name, src]) :
      decode line = .instr (make d o) :=
    (decode_op2 hop ht).trans (decodeOp2_of_spelling make d h)
  exact ⟨hop2 Opcode.mov_op2, hop2 Opcode.add_op2, hop2 Opcode.sub_op2,
    fun ht => (decode_push ht).trans (decodeSrc1_of_spelling .push h),
    fun ht => (decode_pop ht).trans (decodeDest1_name .pop d)⟩

/-- Settles O9: each line is a closed text, and the decoder is run on it. -/
theorem linesDecodeAsEncoded : Obligations.LinesDecodeAsEncoded := by
  refine ⟨?_, ?_, ?_, ?_, ?_, ?_, ?_⟩ <;> decide

theorem strip_eq_nil_of_space {t : Text} (h : ∀ c ∈ t, isSpace c = true) : strip t = [] := by
  simp [strip, List.dropWhile_eq_nil_iff.2 h]

/-- The characters of the physical lines are those of the text. -/
theorem mem_of_mem_splitLinesFrom {acc t p : Text} {c : Char} (hp : p ∈ splitLinesFrom acc t)
    (hc : c ∈ p) : c ∈ acc ∨ c ∈ t := by
  induction t generalizing acc with
  | nil =>
    rw [splitLinesFrom, List.mem_singleton] at hp
    exact .inl (List.mem_reverse.1 (hp ▸ hc))
  | cons d ds ih =>
    rw [splitLinesFrom] at hp
    split at hp
    · rcases List.mem_cons.1 hp with rfl | hp
      · exact .inl (List.mem_reverse.1 hc)
      · exact .inr (List.mem_cons_of_mem d ((ih hp).resolve_left List.not_mem_nil))
    · rcases ih hp with hacc | hds
      · rcases List.mem_cons.1 hacc with rfl | hacc
        · exact .inr List.mem_cons_self
        · exact .inl hacc
      · exact .inr (List.mem_cons_of_mem d hds)

theorem numberLines_eq_nil {ts : List Text} (h : ∀ t ∈ ts, strip t = []) (n : Nat) :
    numberLines n ts = [] := by
  rw [numberLines_eq_filterMap, List.filterMap_eq_nil_iff]
  intro p hp
  exact if_pos (h p.1 (List.fst_mem_of_mem_zipIdx hp))

theorem programLines_eq_nil_of_space {text : Text} (h : ∀ c ∈ text, isSpace c = true) :
    programLines text = [] :=
  numberLines_eq_nil (fun _ hp => strip_eq_nil_of_space fun c hc =>
    h c ((mem_of_mem_splitLinesFrom hp hc).resolve_left List.not_mem_nil)) 1

end Sys2Proof

/-! The engine (R31, R34, R36, R37, R100 to R113): the host's calls between runs, the return of a run, the
viewer's read, and what a step of a run can change. -/

namespace Sys2Proof.Machine

/-- Settles O21: kind, code and info are read off the error's constructor. -/
theorem faultRecordFollowsTheErrorTable : Obligations.FaultRecordFollowsTheErrorTable := by
  intro pc lineno text t a
  refine ⟨?_, ?_, ?_, ?_, ?_, ?_, ?_⟩ <;> rintro rec rfl <;> exact ⟨rfl, rfl, rfl⟩

/-- Settles O17: the line at the position is fetched, after the turn in which the viewer does not read. -/
theorem stepRunsTheDecodedInstruction : Obligations.StepRunsTheDecodedInstruction := by
  refine fun s lines pc line i hat hd => ⟨fun hv => step_of_decode_instr hv hat hd, fun rest hv => ?_⟩
  have hat' : (s.setViewer rest).atLine lines pc line := hat
  rw [step_pass hv, stepCore_running hat'.1, stepRun_of_getElem? hat'.2, runLine_of_instr hd]

/-! ### Several steps -/

theorem core_run_two {s t : State} (h : step s = .next t) :
    Host.Core.run Sys2Proof.core 2 s = step t :=
  (core_run_succ 1 h).trans (core_run_one t)

theorem core_run_of_fixed {s : State} (h : step s = .next s) (k : Nat) :
    Host.Core.run Sys2Proof.core k s = .next s := by
  induction k with
  | zero => rfl
  | succ k ih => exact (core_run_succ k h).trans ih

/-! ### One step without a turn of the viewer -/

section
variable {s : State} (hv : s.viewer = [])
include hv

theorem step_done (h : s.run = .done) : step s = .next (returnRun .runDone s) :=
  (step_noViewer hv).trans (stepCore_done h)

theorem step_faulted {rec : FaultRecord} (h : s.run = .faulted rec) :
    step s = .next (returnRun (.runFaulted rec) s) :=
  (step_noViewer hv).trans (stepCore_faulted h)

variable (h : s.run = .idle) {rest : List Request}
include h

theorem step_idle : step s = serveHost s := (step_noViewer hv).trans (stepCore_idle h)

theorem step_idle_noRequest (hr : s.requests = []) : step s = .next s := by
  simp [step_idle hv h, serveHost, hr]

theorem step_idle_call {i : Instr} (hr : s.requests = .call i :: rest) :
    step s = exec i (s.setRequests rest) := by
  simp [step_idle hv h, serveHost, hr]

theorem step_idle_executeProgram {text : Text} (hr : s.requests = .executeProgram text :: rest) :
    step s = .next (beginRun text (s.setRequests rest)) := by
  simp [step_idle hv h, serveHost, hr]

theorem step_idle_dump (hr : s.requests = .dump :: rest) :
    step s = .next ((s.setRequests rest).answer (.registers s.registerListing)) := by
  simp [step_idle hv h, serveHost, hr]

end

/-! ### The statements on the host's calls -/

/-- Settles O60: Done and Faulted each have one way on, the return. -/
theorem endedRunReturnsToIdle : Obligations.EndedRunReturnsToIdle :=
  fun _ hv => ⟨step_done hv, fun _ => step_faulted hv⟩

/-- Settles O24: a waiting call begins in the Idle state, at once or after the return of the run before. -/
theorem programCallBeginsAtItsFirstLine : Obligations.ProgramCallBeginsAtItsFirstLine := by
  refine fun s text rest hv hr =>
    ⟨fun h => step_idle_executeProgram hv h hr, fun h => ?_, fun rec h => ?_⟩
  · rw [core_run_two (step_done hv h)]
    exact step_idle_executeProgram (s := returnRun _ s) hv rfl hr
  · rw [core_run_two (step_faulted hv h)]
    exact step_idle_executeProgram (s := returnRun _ s) hv rfl hr

/-- Settles O25: the Idle state serves the oldest call or stays as it is, and after a fault it is reached
by the return. -/
theorem hostCallsAreServedBetweenRuns : Obligations.HostCallsAreServedBetweenRuns := by
  refine fun s hv => ⟨fun h => ⟨step_idle_noRequest hv h, fun i rest => step_idle_call hv h⟩,
    fun rec h => ⟨fun hr k => ?_, fun i rest hr => ?_⟩⟩
  · rw [core_run_succ k (step_faulted hv h)]
    exact core_run_of_fixed (step_idle_noRequest (s := returnRun _ s) hv rfl hr) k
  · rw [core_run_two (step_faulted hv h)]
    exact step_idle_call (s := returnRun _ s) hv rfl hr

/-- Settles O26: the listing goes through the registers in the order of R20. -/
theorem dumpListsTheRegisters : Obligations.DumpListsTheRegisters :=
  fun _ _ h hv hr => step_idle_dump hv h hr

theorem State.setRun_of_run_eq {s : State} {o : RunState} (h : s.run = o) : s.setRun o = s := by
  subst h
  rfl

/-- Settles O23: a text of whitespace has blank lines only, and the first fetch of an empty L is at its
end. -/
theorem blankProgramIsDone : Obligations.BlankProgramIsDone := by
  refine ⟨fun text => programLines_eq_nil_of_space, fun s text rest h hv hr hL => ?_⟩
  have hbegin := step_idle_executeProgram hv h hr
  have hend : step (beginRun text (s.setRequests rest)) = .next ((s.setRequests rest).setRun .done) := by
    rw [beginRun, hL]
    exact (step_running (s := (s.setRequests rest).setRun _) hv rfl).trans (stepRun_at_length [] _)
  have hreturn : step ((s.setRequests rest).setRun .done) =
      .next ((s.setRequests rest).answer .runDone) := by
    have hidle : (s.setRequests rest).setRun .idle = s.setRequests rest := State.setRun_of_run_eq h
    rw [step_done (s := (s.setRequests rest).setRun .done) hv rfl, returnRun, State.setRun_setRun, hidle]
  exact ⟨(core_run_two hbegin).trans hend,
    (core_run_succ 2 hbegin).trans ((core_run_two hend).trans hreturn)⟩

/-! ### The viewer's read -/

theorem viewerRead_inRange {s : State} {g o : Nat} (h : linearAddress g o < s.memSize) :
    viewerRead g o s = s.answerViewer (.u8 (s.byteAt (linearAddress g o))) := by
  simp [viewerRead, readAnswer, State.memRead_inRange (show linearAddress g o + 1 ≤ s.memSize from h),
    State.byteAt]

theorem viewerRead_outOfRange {s : State} {g o : Nat} (h : s.memSize ≤ linearAddress g o) :
    viewerRead g o s = s.answerViewer (.failed (.outOfBounds (linearAddress g o))) := by
  rw [viewerRead, readAnswer, State.memRead_outOfRange (show s.memSize < linearAddress g o + 1 by omega)]

/-- Settles O27: the viewer's read is the byte read of the ports, at the linear address. -/
theorem viewerOnlyReadsAByte : Obligations.ViewerOnlyReadsAByte := by
  intro s g o rest hv
  rw [step_viewerRead hv]
  exact ⟨fun h => next_congr (viewerRead_inRange (s := s.setViewer rest) h),
    fun h => next_congr (viewerRead_outOfRange (s := s.setViewer rest) h)⟩

/-! ### What a step can change -/

/-- Settles O19: the next state of the run's step, or the read of the viewer before it. -/
theorem positionOnlyAdvances : Obligations.PositionOnlyAdvances := by
  intro s t lines pc hrun ht
  rcases step_cases s with ⟨g, o, rest, hviewer, he⟩ | ⟨rest, _, he⟩ <;> rw [he] at ht
  · cases ht
    exact ⟨rfl, .inl ⟨g, o, rest, hviewer, rfl⟩⟩
  · have hrun' : (s.setViewer rest).run = .running lines pc := hrun
    rw [stepCore_running hrun'] at ht
    rcases stepRun_next hrun' ht with ⟨hlt, hnext, _, hrequests, _⟩ | ⟨hend, _, hrequests, _⟩
    · exact ⟨hrequests, .inr (.inl ⟨hlt, hnext⟩)⟩
    · exact ⟨hrequests, .inr (.inr hend)⟩

/-- An instruction of program text needs a run in progress (R33, log 7). -/
theorem running_of_exec_textual_next {i : Instr} {s t : State} (hi : i.textual = true)
    (h : exec i s = .next t) : ∃ lines pc, s.run = .running lines pc := by
  rcases exec_textual_cases s hi with ⟨s', hs, he⟩ | ⟨s', e, hs, he⟩ <;> rw [he] at h
  · obtain ⟨lines, pc, hrun, _⟩ := completeLine_next h
    exact ⟨lines, pc, hs.run.symm.trans hrun⟩
  · obtain ⟨lines, pc, _, hrun, _⟩ := raiseInRun_next h
    exact ⟨lines, pc, hs.run.symm.trans hrun⟩

/-- Among the calls of the host only the six writes change memory. -/
theorem serveHost_mem_ne {s t : State} (hidle : s.run = .idle) (h : serveHost s = .next t)
    (hne : t.mem ≠ s.mem) :
    ∃ i rest, s.requests = .call i :: rest ∧ t.requests = rest ∧ callWritesMemory i := by
  unfold serveHost at h
  split at h
  case h_2 i rest hr =>
    cases hi : i.textual with
    | true =>
      obtain ⟨_, _, hrun⟩ := running_of_exec_textual_next hi h
      cases hidle.symm.trans hrun
    | false =>
      have hport : i.port = true := by simp [Instr.port, hi]
      obtain ⟨u, hu, hdone⟩ := exec_port_cases (s.setRequests rest) hport
      cases hu.symm.trans h
      exact ⟨i, rest, hr, hdone.requests, hdone.mem hne⟩
  all_goals
    cases h
    exact absurd rfl hne

theorem stepCore_mem_ne {s t : State} (h : stepCore s = .next t) (hne : t.mem ≠ s.mem) :
    (∃ lines pc line src, s.atLine lines pc line ∧ decode line.text = .instr (.push src) ∧
      t.requests = s.requests) ∨
    (∃ i rest, s.betweenRuns ∧ s.requests = .call i :: rest ∧ t.requests = rest ∧
      callWritesMemory i) := by
  rcases stepCore_cases s with ⟨lines, pc, hrun, he⟩ | ⟨p, _, he⟩ | ⟨hidle, he⟩ <;> rw [he] at h
  · rcases stepRun_next hrun h with ⟨_, _, _, hrequests, _, _, _, hpush⟩ | ⟨_, _, _, _, hmem⟩
    · obtain ⟨line, src, hline, hd⟩ := hpush hne
      exact .inl ⟨lines, pc, line, src, ⟨hrun, hline⟩, hd, hrequests⟩
    · exact absurd hmem hne
  · cases h
    exact absurd rfl hne
  · obtain ⟨i, rest, hr, hrest, hwrites⟩ := serveHost_mem_ne hidle h hne
    exact .inr ⟨i, rest, hidle, hr, hrest, hwrites⟩

/-- Settles O29: the viewer's read changes no memory, and the CORE's operation is a step of a run, a return
or a call. -/
theorem onlyPushAndWritePortsChangeMemory : Obligations.OnlyPushAndWritePortsChangeMemory := by
  intro s t h hne
  rcases step_cases s with ⟨g, o, rest, _, he⟩ | ⟨rest, _, he⟩ <;> rw [he] at h
  · cases h
    exact absurd rfl hne
  · exact stepCore_mem_ne (s := s.setViewer rest) h hne

end Sys2Proof.Machine
